-- ==== Sys2Proof/Word.lean ====
section
/-! DEFINITION. The word types of the engine: 32-bit words (R7, W = 32) and bytes (R10). Addition of
words is `+` on `BitVec 32`, which is the spec's `+32` (R11, R140): modulo 2^32, no carry kept. -/

namespace Sys2Proof

/-- A 32-bit unsigned word: a register, a buffer word, a constant (R7). -/
abbrev Word := BitVec 32

/-- A byte (R10). -/
abbrev Byte := BitVec 8

end Sys2Proof
end

