-- ==== Sys2Proof/Syntax.lean ====
section
/-! DEFINITION. The instructions, one constructor per row of spec/opcode_table.json, and the three forms
in which an instruction reaches the engine: the command word with its message bus (R83, R84), the step
index (R88), the reset pin (R110). -/

namespace Sys2Proof

/-- One constructor per row of the opcode table. Only what the row's meaning looks at is kept: the `len`
field of RESET, TRANSFORM, FINALIZE and of the reserved opcodes is ignored by the engine (R93, R94), so it
is no part of the instruction. -/
inductive Instr where
  /-- RESET, `op` = 000 (R112). -/
  | reset
  /-- ENCODE, `op` = 001 (R120): the message length and the message bus. -/
  | encode (len : BitVec 6) (msg : BitVec 440)
  /-- TRANSFORM, `op` = 010 (R160). -/
  | transform
  /-- FINALIZE, `op` = 011 (R180). -/
  | finalize
  /-- DIGEST, `op` = 100 (R185): the message length and the message bus. -/
  | digest (len : BitVec 6) (msg : BitVec 440)
  /-- The reserved opcode 101 (R93). -/
  | reserved5
  /-- The reserved opcode 110 (R93). -/
  | reserved6
  /-- The reserved opcode 111 (R93). -/
  | reserved7
  /-- STEP.F, step index `00iiii` (R156). -/
  | stepF (i : BitVec 4)
  /-- STEP.G, step index `01iiii` (R157). -/
  | stepG (i : BitVec 4)
  /-- STEP.H, step index `10iiii` (R158). -/
  | stepH (i : BitVec 4)
  /-- STEP.I, step index `11iiii` (R159). -/
  | stepI (i : BitVec 4)
  /-- HWRESET, the `rst` pin sampled high (R110). -/
  | hwreset
  deriving DecidableEq, Repr

/-- The three formats an instruction can have (R80; the pin is R110). -/
inductive Format where
  | cmd
  | step
  | pin
  deriving DecidableEq, Repr

/-- An instruction as the hardware presents it: a CMD word with the MSG bus, a step index, or the level of
the reset pin. -/
inductive Encoded where
  /-- CMD (R83) with the message operand MSG (R84). -/
  | cmd (word : BitVec 9) (msg : BitVec 440)
  /-- STEP (R88). -/
  | step (j : BitVec 6)
  /-- The port `rst` at a rising edge (R110). -/
  | pin (rst : BitVec 1)
  deriving DecidableEq, Repr

/-- Why bits are no instruction. -/
inductive DecodeReject where
  /-- A bit is set that the format does not have (bits 15:9 beside a command word, above the 440 message
  bits, above a step index or above the pin). Safe: no port carries such a bit. -/
  | noSuchBit
  /-- The pin is low: `rst` = 0 resets nothing (R110). Safe: the engine does nothing at such an edge. -/
  | pinLow
  deriving DecidableEq, Repr

end Sys2Proof
end

