-- ==== Sys2Proof/WellFormed.lean ====
section
/-! DEFINITION. When an instruction is the canonical form of what a port carries. -/

namespace Sys2Proof

/-- The message operand holds nothing at byte index `len` and above: those bytes are ignored (R84), and a
script's line carries none (R97; 95_test_vectors.md section 10 "unused high bytes taken as 0"). Every
other field is exactly as wide as its port, so nothing else can be ill-formed. -/
def Instr.wf : Instr → Bool
  | .encode len msg => decide (msg.toNat < 2 ^ (8 * len.toNat))
  | .digest len msg => decide (msg.toNat < 2 ^ (8 * len.toNat))
  | .reset => true
  | .transform => true
  | .finalize => true
  | .reserved5 => true
  | .reserved6 => true
  | .reserved7 => true
  | .stepF _ => true
  | .stepG _ => true
  | .stepH _ => true
  | .stepI _ => true
  | .hwreset => true

/-- `Instr.wf` as a proposition. -/
abbrev Instr.WellFormed (i : Instr) : Prop := i.wf = true

end Sys2Proof
end

