-- ==== Sys2Proof/Decode.lean ====
section
/-! DEFINITION. The decoder, total on the command word (R95), on the step index (R96) and on any bits, which
rejects by name what no port carries; after it the encoder, written from the same rules (R83, R84, R88). -/

namespace Sys2Proof

/-- The bytes of the message bus below index `len`; the bytes at `len` and above are ignored (R84). -/
def keepBytes (len : BitVec 6) (msg : BitVec 440) : BitVec 440 :=
  BitVec.ofNat 440 (msg.toNat % 2 ^ (8 * len.toNat))

/-- The opcode field, CMD bits 2:0 (R83). -/
def cmdOpField (word : BitVec 9) : BitVec 3 := word.extractLsb' 0 3

/-- The length field, CMD bits 8:3 (R83). -/
def cmdLenField (word : BitVec 9) : BitVec 6 := word.extractLsb' 3 6

/-- A command word and its message bus (R83, R93, R94). -/
def decodeCmd (word : BitVec 9) (msg : BitVec 440) : Instr :=
  match (cmdOpField word).toNat with
  | 0 => .reset
  | 1 => .encode (cmdLenField word) (keepBytes (cmdLenField word) msg)
  | 2 => .transform
  | 3 => .finalize
  | 4 => .digest (cmdLenField word) (keepBytes (cmdLenField word) msg)
  | 5 => .reserved5
  | 6 => .reserved6
  | _ => .reserved7

/-- A step index: bits 5:4 are the quarter, bits 3:0 the position in it (R88, R90). -/
def decodeStep (j : BitVec 6) : Instr :=
  match (j.extractLsb' 4 2).toNat with
  | 0 => .stepF (j.extractLsb' 0 4)
  | 1 => .stepG (j.extractLsb' 0 4)
  | 2 => .stepH (j.extractLsb' 0 4)
  | _ => .stepI (j.extractLsb' 0 4)

/-- The decoder. -/
def decode : Encoded → Except DecodeReject Instr
  | .cmd word msg => .ok (decodeCmd word msg)
  | .step j => .ok (decodeStep j)
  | .pin rst => if rst = 1#1 then .ok .hwreset else .error .pinLow

/-- Any bits, read in a format. The layout in one number is the model's own (assumption 5): a CMD word in
bits 8:0 of two bytes, the MSG bus from bit 16 on, so that message byte `a` is byte `a + 2`. -/
def encodedOfBits : Format → Nat → Except DecodeReject Encoded
  | .cmd, n =>
    if n / 2 ^ 9 % 2 ^ 7 = 0 ∧ n / 2 ^ 16 < 2 ^ 440 then
      .ok (.cmd (BitVec.ofNat 9 n) (BitVec.ofNat 440 (n / 2 ^ 16)))
    else .error .noSuchBit
  | .step, n => if n < 2 ^ 6 then .ok (.step (BitVec.ofNat 6 n)) else .error .noSuchBit
  | .pin, n => if n < 2 then .ok (.pin (BitVec.ofNat 1 n)) else .error .noSuchBit

/-- The decoder on any bits of a format. -/
def decodeBits (f : Format) (n : Nat) : Except DecodeReject Instr :=
  match encodedOfBits f n with
  | .ok e => decode e
  | .error r => .error r

/-- The format of an opcode-table row, from the bits the table gives it: 9 (two bytes) for a command, 6 for
a step, 1 for the pin. A step and the pin both fill one byte: of the bytes, 0x01 is the pin high and the
others are step indices (assumption 5); with the exact width 6 every step index is reached. -/
def tableFormat (nbits w : Nat) : Format :=
  if 8 < nbits then .cmd
  else if nbits ≤ 1 then .pin
  else if nbits = 8 ∧ w = 1 then .pin
  else .step

/-- What the decoder reads from an instruction of the opcode table whose bits are `w`. -/
def decodeTableWord (nbits w : Nat) : Option Instr :=
  match decodeBits (tableFormat nbits w) w with
  | .ok i => some i
  | .error _ => none

/-! ## The encoder -/

/-- `cmd = {cmd_len[5:0], cmd_op[2:0]}` (R83). -/
def cmdWord (len : BitVec 6) (op : BitVec 3) : BitVec 9 := len ++ op

/-- `j = {q[1:0], i[3:0]}` (R88). -/
def stepIndex (q : BitVec 2) (i : BitVec 4) : BitVec 6 := q ++ i

/-- The encoder: the ignored `len` field and message bus are emitted as 0 (R94). -/
def encode : Instr → Encoded
  | .reset => .cmd (cmdWord 0 0b000#3) 0
  | .encode len msg => .cmd (cmdWord len 0b001#3) msg
  | .transform => .cmd (cmdWord 0 0b010#3) 0
  | .finalize => .cmd (cmdWord 0 0b011#3) 0
  | .digest len msg => .cmd (cmdWord len 0b100#3) msg
  | .reserved5 => .cmd (cmdWord 0 0b101#3) 0
  | .reserved6 => .cmd (cmdWord 0 0b110#3) 0
  | .reserved7 => .cmd (cmdWord 0 0b111#3) 0
  | .stepF i => .step (stepIndex 0b00#2 i)
  | .stepG i => .step (stepIndex 0b01#2 i)
  | .stepH i => .step (stepIndex 0b10#2 i)
  | .stepI i => .step (stepIndex 0b11#2 i)
  | .hwreset => .pin 1#1

/-- An encoded instruction as one number, the layout that `encodedOfBits` reads. -/
def encodedBits : Encoded → Nat
  | .cmd word msg => word.toNat + msg.toNat * 2 ^ 16
  | .step j => j.toNat
  | .pin rst => rst.toNat

/-- The format of an encoded instruction. -/
def encodedFormat : Encoded → Format
  | .cmd _ _ => .cmd
  | .step _ => .step
  | .pin _ => .pin

/-- Bytes on a bus, byte `k` at bits `[8k+7 : 8k]` (R84, R86, R87). -/
def packBytes (w : Nat) : List Byte → BitVec w
  | [] => 0
  | b :: bs => (packBytes w bs <<< 8) ||| b.setWidth w

/-- The length field and the message bus of a script line: the length is the number of bytes of the literal (R97),
and the bus carries its bytes 0..54 (R84). DEDUCED (entry 16), safe: R97 does not say what a line with a literal of
64 bytes or more becomes; here it is no command at all, because its length cannot be expressed (R94) and the host
must reject it (U2). -/
def lineOperands (message : List Byte) : Option (BitVec 6 × BitVec 440) :=
  if message.length < 64 then some (BitVec.ofNat 6 message.length, packBytes 440 message) else none

/-- The script line `ENCODE <message>` (R97); none for a literal of 64 bytes or more (DEDUCED, entry 16). -/
def encodeLine (message : List Byte) : Option Instr := (lineOperands message).map fun (len, msg) => .encode len msg

/-- The script line `DIGEST <message>` (R97); none for a literal of 64 bytes or more (DEDUCED, entry 16). -/
def digestLine (message : List Byte) : Option Instr := (lineOperands message).map fun (len, msg) => .digest len msg

end Sys2Proof
end

