-- ==== Sys2Proof/Config.lean ====
section
/-! DEFINITION. What the hardware fixes for good (R7, R33). The spec leaves no result of an instruction
undefined, so there is no free value here; its open timing parameters `T_STEP` and `T_CMD` (R8) have no
place in a model without time (assumption 9). The step tables stand in `Sys2Proof/Machine/Operands.lean`. -/

namespace Sys2Proof

/-- `MAXLEN`: the largest message length in bytes that ENCODE accepts (R7; 90_conflicts.md C1). -/
def Config.maxLen : Nat := 55

/-- `MSGBYTES`: the bytes the message bus carries (R8, R84). -/
def Config.msgBytes : Nat := 55

/-- `NSTEP`: the steps of one transform (R7). -/
def Config.nStep : Nat := 64

/-- The initial constant of A (R7, R33). -/
def Config.ivA : Word := 0x67452301#32

/-- The initial constant of B (R7, R33). -/
def Config.ivB : Word := 0xEFCDAB89#32

/-- The initial constant of C (R7, R33). -/
def Config.ivC : Word := 0x98BADCFE#32

/-- The initial constant of D (R7, R33). -/
def Config.ivD : Word := 0x10325476#32

end Sys2Proof
end

