-- ==== Sys2Proof/Machine/State.lean ====
section
/-! DEFINITION. The state of the engine as plain data (R38), with the output port that carries the response
(R82, R85) and the model's own fields `port` and `view` (assumptions 1 and 2). -/

namespace Sys2Proof.Machine

/-- The Digest State: the registers A, B, C, D, in index form `x[0]` to `x[3]` (R13, R20). -/
structure Quad where
  a : Word
  b : Word
  c : Word
  d : Word
  deriving DecidableEq, Repr

/-- The input buffer M as bytes 0 to 63 (R14, R29): (byte address, byte) pairs with rising addresses, no
listed byte equal to 0x00. A byte that is not listed is 0x00, the buffer's content at reset (R31). -/
abbrev Memory := List Host.Cell

/-- The two faults of the engine (R200). A fault is the engine's defined behaviour (R207): a next state
of the model, not a stop. -/
inductive CommandFault where
  /-- The length of an ENCODE or DIGEST is above 55 (R201); code 1. -/
  | msgTooLong
  /-- A reserved opcode (R202); code 2. -/
  | illegalCommand
  deriving DecidableEq, Repr

/-- The response to a command (R85). `rsp_digest` and `rsp_hex` exist exactly in an OK response to FINALIZE
or DIGEST; elsewhere their value is unspecified and a model does not include them (R85, U7). -/
inductive Response where
  /-- Status 0, no digest: RESET, ENCODE, TRANSFORM. -/
  | ok
  /-- Status 0 with `rsp_digest` (R86) and `rsp_hex` (R87): FINALIZE, DIGEST. -/
  | okDigest (digest : BitVec 128) (hex : BitVec 256)
  /-- Status 1 or 2, no digest (R204). -/
  | rejected (f : CommandFault)
  deriving DecidableEq, Repr

/-- The command in flight, between its acceptance and its response (R82). BUSY is 1 exactly while there is
one (R26), so this is BUSY's one home (assumption 3). -/
inductive Flight where
  /-- A command without steps, its writes done, its response due (assumption 4). -/
  | respond (r : Response)
  /-- TRANSFORM, its steps running; STEP is the step performed next (R23). -/
  | transform
  /-- DIGEST, its steps running. -/
  | digest
  deriving DecidableEq, Repr

/-- What the host drives on the input ports at one rising edge (R81). -/
inductive Drive where
  /-- `rst` = 1 (R110). -/
  | rst
  /-- `rst` = 0 and `cmd_valid` = 0. -/
  | idle
  /-- `rst` = 0 and `cmd_valid` = 1 with a command word and a message bus, held until accepted (R82). -/
  | cmd (word : BitVec 9) (msg : BitVec 440)
  deriving DecidableEq, Repr

/-- The two views of the spec (R6, R163): which of them `step` follows is the model's own field. -/
inductive View where
  /-- One command is one atomic transition (R6, R57, D1). -/
  | command
  /-- Acceptance, one transition per step, and the response are transitions of their own, with STEP and
  BUSY visible (R82, R163). -/
  | sequencer
  deriving DecidableEq, Repr

/-- The whole state. -/
structure State where
  /-- A, B, C, D (R20). -/
  x : Quad
  /-- The input buffer M (R29). -/
  mem : Memory
  /-- STEP, the index of the step the sequencer performs next (R23). -/
  stepCounter : BitVec 6
  /-- The command in flight; BUSY is 1 exactly when there is one (R26, R82). -/
  flight : Option Flight
  /-- ERR, the sticky error flag (R26). -/
  err : Bool
  /-- CAUSE, the most recent fault (R27); none is code 0. -/
  cause : Option CommandFault
  /-- The response ports: a response is present (`rsp_valid` = 1) at this clock, or none is (R82). -/
  rsp : Option Response
  /-- MODEL: what the host drives at the coming edges, the next one first (assumption 2). -/
  port : List Drive
  /-- MODEL: the view `step` follows (assumption 1). -/
  view : View
  deriving DecidableEq, Repr

/-- Why the model stops. No instruction of the opcode table and no step can reach it (obligation
`EveryInstructionCompletes`). -/
inductive Fault where
  /-- Raised by `memRead` and `memWrite` at an address that is not a multiple of 4 in 0..60. DEDUCED (entry 14)
  from R14, which says nothing of such an address. Safe:
  the spec has no such address, "no rule uses another size or an unaligned address". -/
  | noSuchBufferAddress (addr : Nat)
  deriving DecidableEq, Repr

/-- Why the model gives an instruction no meaning. Every row of the opcode table has one, so nothing raises
this. -/
inductive Refusal where
  /-- An instruction of the opcode table without a meaning in the model; raised by nothing. Safe. -/
  | notModelled (mnemonic : String)
  deriving DecidableEq, Repr

/-- The initial constants as a register quadruple (R33). -/
def Quad.iv : Quad := ⟨Config.ivA, Config.ivB, Config.ivC, Config.ivD⟩

/-- The state after reset (R38, R230): idle and ready, nothing presented, the command view. -/
def State.reset : State where
  x := Quad.iv
  mem := []
  stepCounter := 0
  flight := none
  err := false
  cause := none
  rsp := none
  port := []
  view := .command

end Sys2Proof.Machine
end

