-- ==== Sys2Proof/Machine/Operands.lean ====
section
/-! DEFINITION. Operand assembly: the message and its padding (R84, R89, R121), the fields of the step index
and the three step tables (R88 to R92, R150 to R153), the register quadruple in index form (R13). -/

namespace Sys2Proof.Machine

/-! ## The message operand -/

/-- `len` above 55 (R124, R201): the test is on the length field alone. -/
def tooLong (len : BitVec 6) : Bool := decide (Config.maxLen < len.toNat)

/-- Message byte `a` is `cmd_msg[8a+7 : 8a]` (R84). -/
def msgByte (msg : BitVec 440) (a : Nat) : Byte := msg.extractLsb' (8 * a) 8

/-- The encoded word count `n = (len + 4) div 4` (R89). -/
def encodedWords (len : BitVec 6) : Nat := (len.toNat + 4) / 4

/-- The padded byte sequence `P(a)` (R121, R123). -/
def padByte (len : BitVec 6) (msg : BitVec 440) (a : Nat) : Byte :=
  if a < len.toNat then msgByte msg a
  else if a = len.toNat then 0x80#8
  else 0x00#8

/-- A word from its four bytes, byte 0 in the low bits (R10, R50). -/
def wordOfBytes (b0 b1 b2 b3 : Byte) : Word := b3 ++ b2 ++ b1 ++ b0

/-- Byte `k` of a word is `w[8k+7 : 8k]` (R10). -/
def byteOfWord (w : Word) (k : Nat) : Byte := w.extractLsb' (8 * k) 8

/-- The packed word `i` of ENCODE: `{P(4i+3), P(4i+2), P(4i+1), P(4i)}` (R120). -/
def packedWord (len : BitVec 6) (msg : BitVec 440) (i : Nat) : Word :=
  wordOfBytes (padByte len msg (4 * i)) (padByte len msg (4 * i + 1)) (padByte len msg (4 * i + 2))
    (padByte len msg (4 * i + 3))

/-- The bit length `L = 8 × len`, 64 bits (R52, R89, D24). -/
def bitLength (len : BitVec 6) : BitVec 64 := 8#64 * len.setWidth 64

/-! ## The step index and the step tables -/

/-- The quarter `q = j[5:4]` (R88, R90). -/
def quarter (j : BitVec 6) : BitVec 2 := j.extractLsb' 4 2

/-- The round-constant ROM (R150), four constants a line as the rule prints them. -/
def romK : List Word :=
  [0xD76AA478#32, 0xE8C7B756#32, 0x242070DB#32, 0xC1BDCEEE#32,
   0xF57C0FAF#32, 0x4787C62A#32, 0xA8304613#32, 0xFD469501#32,
   0x698098D8#32, 0x8B44F7AF#32, 0xFFFF5BB1#32, 0x895CD7BE#32,
   0x6B901122#32, 0xFD987193#32, 0xA679438E#32, 0x49B40821#32] ++
  [0xF61E2562#32, 0xC040B340#32, 0x265E5A51#32, 0xE9B6C7AA#32,
   0xD62F105D#32, 0x02441453#32, 0xD8A1E681#32, 0xE7D3FBC8#32,
   0x21E1CDE6#32, 0xC33707D6#32, 0xF4D50D87#32, 0x455A14ED#32,
   0xA9E3E905#32, 0xFCEFA3F8#32, 0x676F02D9#32, 0x8D2A4C8A#32] ++
  [0xFFFA3942#32, 0x8771F681#32, 0x6D9D6122#32, 0xFDE5380C#32,
   0xA4BEEA44#32, 0x4BDECFA9#32, 0xF6BB4B60#32, 0xBEBFBC70#32,
   0x289B7EC6#32, 0xEAA127FA#32, 0xD4EF3085#32, 0x04881D05#32,
   0xD9D4D039#32, 0xE6DB99E5#32, 0x1FA27CF8#32, 0xC4AC5665#32] ++
  [0xF4292244#32, 0x432AFF97#32, 0xAB9423A7#32, 0xFC93A039#32,
   0x655B59C3#32, 0x8F0CCC92#32, 0xFFEFF47D#32, 0x85845DD1#32,
   0x6FA87E4F#32, 0xFE2CE6E0#32, 0xA3014314#32, 0x4E0811A1#32,
   0xF7537E82#32, 0xBD3AF235#32, 0x2AD7D2BB#32, 0xEB86D391#32]

/-- `K[j]` (R150). -/
def constK (j : BitVec 6) : Word := romK.getD j.toNat 0

/-- `SROT[q][j mod 4]` (R92, R151). -/
def romS : List (BitVec 5) :=
  [7#5, 12#5, 17#5, 22#5,
   5#5, 9#5, 14#5, 20#5,
   4#5, 11#5, 16#5, 23#5,
   6#5, 10#5, 15#5, 21#5]

/-- The rotate amount `S[j] = SROT[j[5:4]][j[1:0]]` (R92, R151). -/
def rotAmount (j : BitVec 6) : BitVec 5 :=
  romS.getD (4 * (quarter j).toNat + (j.extractLsb' 0 2).toNat) 0

/-- The message-schedule index decoder as the list of R152, which governs. -/
def romMidx : List (BitVec 4) :=
  [0#4, 1#4, 2#4, 3#4, 4#4, 5#4, 6#4, 7#4, 8#4, 9#4, 10#4, 11#4, 12#4, 13#4, 14#4, 15#4] ++
  [1#4, 6#4, 11#4, 0#4, 5#4, 10#4, 15#4, 4#4, 9#4, 14#4, 3#4, 8#4, 13#4, 2#4, 7#4, 12#4] ++
  [5#4, 8#4, 11#4, 14#4, 1#4, 4#4, 7#4, 10#4, 13#4, 0#4, 3#4, 6#4, 9#4, 12#4, 15#4, 2#4] ++
  [0#4, 7#4, 14#4, 5#4, 12#4, 3#4, 10#4, 1#4, 8#4, 15#4, 6#4, 13#4, 4#4, 11#4, 2#4, 9#4]

/-- `MIDX(j)` (R91, R152). -/
def midx (j : BitVec 6) : BitVec 4 := romMidx.getD j.toNat 0

/-- The 43-bit step row `{q[1:0], g[3:0], s[4:0], k[31:0]}` (R88, R153). -/
def stepRow (j : BitVec 6) : BitVec 43 := quarter j ++ midx j ++ rotAmount j ++ constK j

/-! ## The registers in index form -/

/-- `x[i]` (R13). -/
def Quad.get (x : Quad) (i : Fin 4) : Word :=
  match i with
  | 0 => x.a
  | 1 => x.b
  | 2 => x.c
  | 3 => x.d

end Sys2Proof.Machine
end

