-- ==== Sys2Proof/Machine/Datapath.lean ====
section
/-! DEFINITION. The datapath of a step and of a transform (R140 to R147, R155, R163): functions of words and
register quadruples, with no state in them. Addition modulo 2^32 (R140) is `+` on words and the bitwise
operators (R142) are those of `BitVec 32`. -/

namespace Sys2Proof.Machine

/-- `rotl32(a, n) = ((a << n) | (a >> (32 − n))) mod 2^32`, for 0 < n < 32 (R11, R141). -/
def rotl32 (a : Word) (n : Nat) : Word := (a <<< n) ||| (a >>> (32 - n))

/-- `F(b,c,d) = (b & c) | (~b & d)` (R143). -/
def roundF (b c d : Word) : Word := (b &&& c) ||| (~~~b &&& d)

/-- `G(b,c,d) = (b & d) | (c & ~d)` (R144). -/
def roundG (b c d : Word) : Word := (b &&& d) ||| (c &&& ~~~d)

/-- `H(b,c,d) = b ^ c ^ d` (R145). -/
def roundH (b c d : Word) : Word := b ^^^ c ^^^ d

/-- `I(b,c,d) = c ^ (b | ~d)` (R146). -/
def roundI (b c d : Word) : Word := c ^^^ (b ||| ~~~d)

/-- The function of a quarter: 0 → F, 1 → G, 2 → H, 3 → I (R88, R161). -/
def roundFn (q : BitVec 2) : Word → Word → Word → Word :=
  match q.toNat with
  | 0 => roundF
  | 1 => roundG
  | 2 => roundH
  | _ => roundI

/-- One step on the registers (R155): `w` is the buffer word read, `k` and `s` the constants of the row. The
right side of the register move uses the values from before the step (R164). -/
def roundStep (fn : Word → Word → Word → Word) (w k : Word) (s : Nat) (x : Quad) : Quad :=
  { a := x.d
    b := rotl32 (x.a + fn x.b x.c x.d + w + k) s + x.b
    c := x.b
    d := x.c }

end Sys2Proof.Machine
end

