-- ==== Sys2Proof/Machine/Flags.lean ====
section
/-! DEFINITION. The status flags and the ports (R26, R27, R81, R85): how BUSY, ERR, CAUSE and STATUS are read
and written. The engine has no flag of arithmetic (R25): no computation here looks at a result. -/

namespace Sys2Proof.Machine

/-- BUSY: 1 from the acceptance of a command until its response (R26, R82). -/
def State.busy (s : State) : Bool := s.flight.isSome

/-- The code of a fault, in CAUSE and in `rsp_status` (R200). -/
def faultCode : CommandFault → BitVec 2
  | .msgTooLong => 1#2
  | .illegalCommand => 2#2

/-- CAUSE as the 2-bit field of STATUS: 0 none, 1 MsgTooLong, 2 IllegalCommand (R27). -/
def causeCode : Option CommandFault → BitVec 2
  | none => 0#2
  | some f => faultCode f

/-- STATUS, the port `status` (R27): BUSY at bit 0, ERR at bit 1, CAUSE at bits 3:2, STEP at bits 9:4. -/
def State.status (s : State) : BitVec 10 :=
  s.stepCounter ++ causeCode s.cause ++ BitVec.ofBool s.err ++ BitVec.ofBool s.busy

/-- `cmd_ready` = not BUSY (R81). -/
def State.cmdReady (s : State) : Bool := !s.busy

/-- A fault sets ERR and writes its code to CAUSE, over an earlier one (R27, R204, R205). -/
def State.recordFault (s : State) (f : CommandFault) : State :=
  { s with err := true, cause := some f }

/-- RESET clears ERR and CAUSE (R112). -/
def State.clearFault (s : State) : State :=
  { s with err := false, cause := none }

/-! ## The response ports -/

/-- `rsp_valid` (R82). -/
def State.rspValid (s : State) : Bool := s.rsp.isSome

/-- The status of a response: 0 OK, 1 MsgTooLong, 2 IllegalCommand (R85). -/
def responseStatus : Response → BitVec 2
  | .ok => 0#2
  | .okDigest _ _ => 0#2
  | .rejected f => faultCode f

/-- `rsp_status`, where a response is present (R85). -/
def State.rspStatus (s : State) : Option (BitVec 2) := s.rsp.map responseStatus

/-- `rsp_digest`, where it is meaningful (R85). -/
def State.rspDigest (s : State) : Option (BitVec 128) :=
  match s.rsp with
  | some (.okDigest digest _) => some digest
  | some .ok => none
  | some (.rejected _) => none
  | none => none

/-- `rsp_hex`, where it is meaningful (R85). -/
def State.rspHex (s : State) : Option (BitVec 256) :=
  match s.rsp with
  | some (.okDigest _ hex) => some hex
  | some .ok => none
  | some (.rejected _) => none
  | none => none

/-! ## The input ports at the coming edge -/

/-- `rst` (R81). -/
def State.rst (s : State) : Bool :=
  match s.port with
  | .rst :: _ => true
  | .idle :: _ => false
  | .cmd _ _ :: _ => false
  | [] => false

/-- `cmd_valid` with `cmd_op`, `cmd_len` (together the command word) and `cmd_msg` (R81, R83). -/
def State.presented (s : State) : Option (BitVec 9 × BitVec 440) :=
  match s.port with
  | .rst :: _ => none
  | .idle :: _ => none
  | .cmd word msg :: _ => some (word, msg)
  | [] => none

/-- A command is accepted at the coming edge: `cmd_valid` = 1, `cmd_ready` = 1 and `rst` = 0 (R82). -/
def State.accepts (s : State) : Bool := s.presented.isSome && s.cmdReady && !s.rst

end Sys2Proof.Machine
end

