-- ==== Sys2Proof/Machine/Ops.lean ====
section
/-! DEFINITION. The named operations that the meanings are built from: the buffer (R14, R29, R50), the
registers, the response (R82), fault entry (R204), reset (R110, R112), the writes of ENCODE (R120), the steps
(R155, R163) and the rendering of the digest (R180). -/

namespace Sys2Proof.Machine

/-! ## The buffer as bytes -/

/-- What a byte reads as that the list does not hold: the buffer's reset content (R31). -/
def memUnlisted : Byte := 0x00#8

/-- Buffer byte `a`, `Mbyte(a)` (R14). -/
def memReadByte : Memory → Nat → Byte
  | [], _ => memUnlisted
  | (k, v) :: m, a => if k = a then v else memReadByte m a

/-- The list without address `a`. -/
def memErase (a : Nat) : Memory → Memory
  | [] => []
  | (k, v) :: m => if k = a then memErase a m else (k, v) :: memErase a m

/-- The list with a byte put before the first greater address. -/
def memInsert (a : Nat) (b : Byte) : Memory → Memory
  | [] => [(a, b)]
  | (k, v) :: m => if a < k then (a, b) :: (k, v) :: m else (k, v) :: memInsert a b m

/-- One byte written; writing what an unlisted byte reads as removes the entry. -/
def memWriteByte (m : Memory) (a : Nat) (b : Byte) : Memory :=
  if b = memUnlisted then memErase a m else memInsert a b (memErase a m)

/-- The canonical form from address `lo` on: rising addresses below 64 and no byte equal to an unlisted one. -/
def Memory.wfFrom (lo : Nat) : Memory → Bool
  | [] => true
  | (k, v) :: m => decide (lo ≤ k) && decide (k < 64) && decide (v ≠ memUnlisted) && Memory.wfFrom (k + 1) m

/-- The canonical form of the buffer. -/
def Memory.wf (m : Memory) : Bool := Memory.wfFrom 0 m

/-! ## The buffer as words -/

/-- The word `M[i]`: bytes `4i` to `4i+3`, the first in the low bits (R14, R50). -/
def readWord (m : Memory) (i : Nat) : Word :=
  wordOfBytes (memReadByte m (4 * i)) (memReadByte m (4 * i + 1)) (memReadByte m (4 * i + 2))
    (memReadByte m (4 * i + 3))

/-- `M[i] <- w`, a whole word (R54, R56). -/
def writeWord (m : Memory) (i : Nat) (w : Word) : Memory :=
  memWriteByte (memWriteByte (memWriteByte (memWriteByte m (4 * i) (byteOfWord w 0)) (4 * i + 1) (byteOfWord w 1))
    (4 * i + 2) (byteOfWord w 2)) (4 * i + 3) (byteOfWord w 3)

/-- `M[0] <- f 0, ..., M[n−1] <- f (n−1)`, in this order. -/
def writeWords (f : Nat → Word) : Nat → Memory → Memory
  | 0, m => m
  | n + 1, m => writeWord (writeWords f n m) n (f n)

/-- An address of `MemRead` and `MemWrite`: a multiple of 4 in 0..60 (R14). -/
def bufferAddress (addr : Nat) : Bool := decide (addr % 4 = 0 ∧ addr ≤ 60)

/-- `MemRead(addr, 4)` (R14) at the addresses R14 gives; at any other it stops (DEDUCED, entry 14). -/
def memRead (m : Memory) (addr : Nat) : Except Fault Word :=
  if bufferAddress addr then .ok (readWord m (addr / 4)) else .error (.noSuchBufferAddress addr)

/-- `MemWrite(addr, 4, w)` (R14) at the addresses R14 gives; at any other it stops (DEDUCED, entry 14). -/
def memWrite (m : Memory) (addr : Nat) (w : Word) : Except Fault Memory :=
  if bufferAddress addr then .ok (writeWord m (addr / 4) w) else .error (.noSuchBufferAddress addr)

/-- `M[i]` of a state. -/
def State.word (s : State) (i : Nat) : Word := readWord s.mem i

/-! ## State updates -/

/-- `(A, B, C, D) <- x`, simultaneous (R13). -/
def State.setX (s : State) (x : Quad) : State := { s with x := x }

/-- The buffer replaced. -/
def State.setMem (s : State) (m : Memory) : State := { s with mem := m }

/-- `STEP <- j` (R13). -/
def State.setStep (s : State) (j : BitVec 6) : State := { s with stepCounter := j }

/-- The response of a command; BUSY returns to 0 at the same edge (R82). -/
def State.respond (s : State) (r : Response) : State := { s with rsp := some r, flight := none }

/-- Fault entry (R204): ERR and CAUSE are written, the response carries the code and no digest, BUSY returns
to 0; A, B, C, D, M and STEP keep their values. There is no return from a fault (R205). -/
def State.enterFault (s : State) (f : CommandFault) : State := (s.recordFault f).respond (.rejected f)

/-- The writes that the RESET command makes (R112): the initial constants, a zero buffer, ERR and CAUSE. -/
def State.restore (s : State) : State := ((s.setX Quad.iv).setMem []).clearFault

/-- Hardware reset (R110, R111): every item of R38 at its reset value and no response, whatever was in
flight; what the host drives next and the view are the model's own and stay. -/
def State.hardReset (s : State) : State := { State.reset with port := s.port, view := s.view }

/-! ## ENCODE's writes -/

/-- The buffer after ENCODE of a message of at most 55 bytes (R120, R122): words `0..n−1`, 14 and 15; no other
word is written. -/
def encodeBuffer (len : BitVec 6) (msg : BitVec 440) (m : Memory) : Memory :=
  writeWord
    (writeWord (writeWords (packedWord len msg) (encodedWords len) m) 14 ((bitLength len).extractLsb' 0 32))
    15 ((bitLength len).extractLsb' 32 32)

/-! ## Steps -/

/-- Step `j` on the registers, with round function `fn` (R155). -/
def stepQuad (fn : Word → Word → Word → Word) (j : BitVec 6) (m : Memory) (x : Quad) : Quad :=
  roundStep fn (readWord m (midx j).toNat) (constK j) (rotAmount j).toNat x

/-- One step of the sequencer (R155): the registers, and `STEP <- (j + 1) mod 64` (R24). -/
def State.performStep (s : State) (fn : Word → Word → Word → Word) (j : BitVec 6) : State :=
  (s.setX (stepQuad fn j s.mem s.x)).setStep (j + 1)

/-- The first `n` steps on the registers, in the order `j = 0, 1, ..., n−1` (R160, R161). -/
def runSteps (m : Memory) (x : Quad) : Nat → Quad
  | 0 => x
  | n + 1 => stepQuad (roundFn (quarter (BitVec.ofNat 6 n))) (BitVec.ofNat 6 n) m (runSteps m x n)

/-- `T((A, B, C, D), M)` (R163). -/
def transformQuad (m : Memory) (x : Quad) : Quad := runSteps m x Config.nStep

/-- All 64 steps at once; STEP ends at 0 (R160, R163). -/
def State.performTransform (s : State) : State := (s.setX (transformQuad s.mem s.x)).setStep 0

/-! ## The digest -/

/-- `A' <- A +32 IV[0]` and so on (R180, R181). -/
def addIv (x : Quad) : Quad :=
  { a := x.a + Config.ivA, b := x.b + Config.ivB, c := x.c + Config.ivC, d := x.d + Config.ivD }

/-- The four bytes of a word, byte 0 first (R53). -/
def wordBytes (w : Word) : List Byte := [byteOfWord w 0, byteOfWord w 1, byteOfWord w 2, byteOfWord w 3]

/-- `byte[0..15]` of the sums, in word order (R180). -/
def digestBytes (x : Quad) : List Byte :=
  wordBytes (addIv x).a ++ wordBytes (addIv x).b ++ wordBytes (addIv x).c ++ wordBytes (addIv x).d

/-- The character of a nibble: '0'..'9' = 0x30..0x39, 'A'..'F' = 0x41..0x46 (R87). -/
def hexDigit (n : BitVec 4) : Byte := if n.toNat ≤ 9 then 0x30#8 + n.setWidth 8 else 0x37#8 + n.setWidth 8

/-- A byte as two digits, the high nibble first (R87). -/
def byteDigits (b : Byte) : List Byte := [hexDigit (b.extractLsb' 4 4), hexDigit (b.extractLsb' 0 4)]

/-- `char[0..31]` (R180). -/
def digestChars (x : Quad) : List Byte := (digestBytes x).flatMap byteDigits

/-- The response of FINALIZE (R85 to R87, R180). -/
def digestResponse (x : Quad) : Response :=
  .okDigest (packBytes 128 (digestBytes x)) (packBytes 256 (digestChars x))

/-! ## Outcomes -/

/-- A change of the next state; a fault or a refusal passes through. -/
def mapNext (g : State → State) : Host.Outcome State Fault Refusal → Host.Outcome State Fault Refusal
  | .next s => .next (g s)
  | .fault r => .fault r
  | .refused r => .refused r

end Sys2Proof.Machine
end

