-- ==== Sys2Proof/Machine/Digest.lean ====
section
/-! DEFINITION. FINALIZE (R180 to R184) and DIGEST (R185 to R189). -/

namespace Sys2Proof.Machine

/-- FINALIZE (R180): a pure read; only the response is written. -/
def execFinalize (s : State) : Host.Outcome State Fault Refusal := .next (s.respond (digestResponse s.x))

/-- DIGEST (R185): a length above 55 faults before anything (R187); else the writes of ENCODE, the steps of
TRANSFORM and the response of FINALIZE, with no reset before or after (R186). -/
def execDigest (len : BitVec 6) (msg : BitVec 440) (s : State) : Host.Outcome State Fault Refusal :=
  if tooLong len then .next (s.enterFault .msgTooLong)
  else
    let t := (s.setMem (encodeBuffer len msg s.mem)).performTransform
    .next (t.respond (digestResponse t.x))

end Sys2Proof.Machine
end

