-- ==== Sys2Proof/Machine/Encode.lean ====
section
/-! DEFINITION. ENCODE, the single-block padder (R120 to R129). -/

namespace Sys2Proof.Machine

/-- ENCODE (R120): a length above 55 faults before any write (R124); else only M is written. -/
def execEncode (len : BitVec 6) (msg : BitVec 440) (s : State) : Host.Outcome State Fault Refusal :=
  if tooLong len then .next (s.enterFault .msgTooLong)
  else .next ((s.setMem (encodeBuffer len msg s.mem)).respond .ok)

end Sys2Proof.Machine
end

