-- ==== Sys2Proof/Machine/Reserved.lean ====
section
/-! DEFINITION. The reserved opcodes 5, 6 and 7 raise IllegalCommand (R93, R202). -/

namespace Sys2Proof.Machine

/-- `op` = 101 (R93). -/
def execReserved5 (s : State) : Host.Outcome State Fault Refusal := .next (s.enterFault .illegalCommand)

/-- `op` = 110 (R93). -/
def execReserved6 (s : State) : Host.Outcome State Fault Refusal := .next (s.enterFault .illegalCommand)

/-- `op` = 111 (R93). -/
def execReserved7 (s : State) : Host.Outcome State Fault Refusal := .next (s.enterFault .illegalCommand)

end Sys2Proof.Machine
end

