-- ==== Sys2Proof/Machine/ResetCommands.lean ====
section
/-! DEFINITION. HWRESET (R110, R111) and RESET (R112 to R114). -/

namespace Sys2Proof.Machine

/-- RESET (R112): cannot fail; the response is OK. -/
def execReset (s : State) : Host.Outcome State Fault Refusal := .next (s.restore.respond .ok)

/-- HWRESET (R110): no response, a command in flight is abandoned (R111). -/
def execHwreset (s : State) : Host.Outcome State Fault Refusal := .next s.hardReset

end Sys2Proof.Machine
end

