-- ==== Sys2Proof/Machine/Transform.lean ====
section
/-! DEFINITION. TRANSFORM (R160 to R163) and the four step micro-operations of the sequencer (R155 to R159). -/

namespace Sys2Proof.Machine

/-- TRANSFORM (R160): the 64 steps over M as it is (R162); M is unchanged; the response is OK. -/
def execTransform (s : State) : Host.Outcome State Fault Refusal := .next (s.performTransform.respond .ok)

/-- STEP.F, `j` = 0..15 (R156). -/
def execStepF (i : BitVec 4) (s : State) : Host.Outcome State Fault Refusal :=
  .next (s.performStep roundF (stepIndex 0b00#2 i))

/-- STEP.G, `j` = 16..31 (R157). -/
def execStepG (i : BitVec 4) (s : State) : Host.Outcome State Fault Refusal :=
  .next (s.performStep roundG (stepIndex 0b01#2 i))

/-- STEP.H, `j` = 32..47 (R158). -/
def execStepH (i : BitVec 4) (s : State) : Host.Outcome State Fault Refusal :=
  .next (s.performStep roundH (stepIndex 0b10#2 i))

/-- STEP.I, `j` = 48..63 (R159); the step at 63 sets STEP back to 0 (R24). -/
def execStepI (i : BitVec 4) (s : State) : Host.Outcome State Fault Refusal :=
  .next (s.performStep roundI (stepIndex 0b11#2 i))

end Sys2Proof.Machine
end

