-- ==== Sys2Proof/Machine/Dispatch.lean ====
section
/-! DEFINITION. The meaning of every instruction, one arm per row of the opcode table. -/

namespace Sys2Proof.Machine

/-- What an instruction does. -/
def exec (i : Instr) (s : State) : Host.Outcome State Fault Refusal :=
  match i with
  | .reset => Sys2Proof.Machine.execReset s
  | .encode len msg => Sys2Proof.Machine.execEncode len msg s
  | .transform => Sys2Proof.Machine.execTransform s
  | .finalize => Sys2Proof.Machine.execFinalize s
  | .digest len msg => Sys2Proof.Machine.execDigest len msg s
  | .reserved5 => Sys2Proof.Machine.execReserved5 s
  | .reserved6 => Sys2Proof.Machine.execReserved6 s
  | .reserved7 => Sys2Proof.Machine.execReserved7 s
  | .stepF pos => Sys2Proof.Machine.execStepF pos s
  | .stepG pos => Sys2Proof.Machine.execStepG pos s
  | .stepH pos => Sys2Proof.Machine.execStepH pos s
  | .stepI pos => Sys2Proof.Machine.execStepI pos s
  | .hwreset => Sys2Proof.Machine.execHwreset s

end Sys2Proof.Machine
end

