-- ==== Sys2Proof/Machine/Sequencer.lean ====
section
/-! DEFINITION. What one rising edge does around `exec` (R82, R111, R163, R247): which instruction comes next,
from the reset pin, from STEP while a transform runs, or from the command port. -/

namespace Sys2Proof.Machine

/-- The edge is past: its response is no longer present (R82: one clock) and what the host drove at it is
consumed. -/
def State.passEdge (s : State) (port : List Drive) : State := { s with rsp := none, port := port }

/-- While BUSY, a presented command is held by the host and waits (R82, R247); an idle edge goes by. -/
def holdCommand : List Drive → List Drive
  | .idle :: rest => rest
  | .rst :: rest => .rst :: rest
  | .cmd word msg :: rest => .cmd word msg :: rest
  | [] => []

/-- The micro-operation the sequencer performs next: the step index is STEP (R23, R88). -/
def fetchStep (s : State) : Instr := decodeStep s.stepCounter

/-- The response that ends a command whose 64 steps are done, or one that was due (R82, R160, R185). -/
def State.complete (s : State) (f : Flight) : State :=
  match f with
  | .respond r => s.respond r
  | .transform => s.respond .ok
  | .digest => s.respond (digestResponse s.x)

/-- One edge with a command in flight: the response that is due, or the step at STEP, after which the last
step (STEP = 63) ends the command (R24, R26). -/
def busyEdge (f : Flight) (s : State) : Host.Outcome State Fault Refusal :=
  match f with
  | .respond r => .next (s.complete (.respond r))
  | .transform =>
    if s.stepCounter = 63#6 then mapNext (fun t => t.complete .transform) (exec (fetchStep s) s)
    else exec (fetchStep s) s
  | .digest =>
    if s.stepCounter = 63#6 then mapNext (fun t => t.complete .digest) (exec (fetchStep s) s)
    else exec (fetchStep s) s

/-- A command that steps is accepted: BUSY is 1 and the transform always starts at step 0 (R23, R230). -/
def State.beginSteps (s : State) (f : Flight) : State := { s with flight := some f, stepCounter := 0 }

/-- The response of a command without steps is held back to a later edge; BUSY is 1 until then (R82). -/
def State.deferResponse (s : State) : State :=
  match s.rsp with
  | some r => { s with rsp := none, flight := some (.respond r) }
  | none => s

/-- Acceptance in the sequencer view (R82): a command without steps does its writes and its response follows
at a later edge (assumption 4); TRANSFORM and DIGEST start the steps, DIGEST after the writes of ENCODE. -/
def acceptCommand (i : Instr) (s : State) : Host.Outcome State Fault Refusal :=
  match i with
  | .transform => .next (s.beginSteps .transform)
  | .digest len msg =>
    if tooLong len then mapNext State.deferResponse (exec (.digest len msg) s)
    else .next ((s.setMem (encodeBuffer len msg s.mem)).beginSteps .digest)
  | .reset => mapNext State.deferResponse (exec .reset s)
  | .encode len msg => mapNext State.deferResponse (exec (.encode len msg) s)
  | .finalize => mapNext State.deferResponse (exec .finalize s)
  | .reserved5 => mapNext State.deferResponse (exec .reserved5 s)
  | .reserved6 => mapNext State.deferResponse (exec .reserved6 s)
  | .reserved7 => mapNext State.deferResponse (exec .reserved7 s)
  | .stepF i => exec (.stepF i) s
  | .stepG i => exec (.stepG i) s
  | .stepH i => exec (.stepH i) s
  | .stepI i => exec (.stepI i) s
  | .hwreset => exec .hwreset s

/-- A command accepted at this edge, in the view the state holds: as a whole (R6, R57), or begun. -/
def runCommand (i : Instr) (s : State) : Host.Outcome State Fault Refusal :=
  match s.view with
  | .command => exec i s
  | .sequencer => acceptCommand i s

/-- One rising edge. Reset has priority over everything (R111); then a command in flight goes on and a
presented one waits (R247); then a presented command is accepted (R82); else nothing changes (R17, R217). -/
def clockEdge (s : State) : Host.Outcome State Fault Refusal :=
  match s.port, s.flight with
  | .rst :: rest, _ => exec .hwreset (s.passEdge rest)
  | port, some f => busyEdge f (s.passEdge (holdCommand port))
  | .cmd word msg :: rest, none => runCommand (decodeCmd word msg) (s.passEdge rest)
  | .idle :: rest, none => .next (s.passEdge rest)
  | [], none => .next (s.passEdge [])

/-- How many edges a command takes in the sequencer view, from acceptance through its response (R163). -/
def edgesOf : Instr → Nat
  | .transform => 1 + Config.nStep
  | .digest len _ => if tooLong len then 2 else 1 + Config.nStep
  | .reset => 2
  | .encode _ _ => 2
  | .finalize => 2
  | .reserved5 => 2
  | .reserved6 => 2
  | .reserved7 => 2
  | .stepF _ => 1
  | .stepG _ => 1
  | .stepH _ => 1
  | .stepI _ => 1
  | .hwreset => 1

/-- The engine made to meet an instruction at the coming edge: a command word presented to an idle engine in
the command view, a step index in STEP with a transform in flight, or the pin driven high (assumption 6). -/
def placeInstr (s : State) : Encoded → State
  | .cmd word msg => { s with port := .cmd word msg :: s.port, flight := none, view := .command }
  | .step j => { s with port := .idle :: s.port, flight := some .transform, stepCounter := j }
  | .pin rst => if rst = 1#1 then { s with port := .rst :: s.port } else s

end Sys2Proof.Machine
end

