-- ==== Sys2Proof/Machine/Step.lean ====
section
/-! DEFINITION. The step of the machine, one rising edge of the clock, and the placing of one instruction. -/

namespace Sys2Proof.Machine

/-- One step: what one rising edge does. -/
def step (s : State) : Host.Outcome State Fault Refusal := clockEdge s

/-- The state with an instruction of the opcode table, its bits `w`, where the next step meets it. -/
def State.withFetchWord (s : State) (nbits w : Nat) : State :=
  match encodedOfBits (tableFormat nbits w) w with
  | .ok e => placeInstr s e
  | .error _ => s

end Sys2Proof.Machine
end

