-- ==== Sys2Proof/Safety.lean ====
section
/-! DEFINITION. The terms that statements use: a fresh engine (R18), the invariant of every step, and the block
that one message makes (R59), written down without ENCODE's algorithm. -/

namespace Sys2Proof.Machine

/-- A fresh engine: (A, B, C, D) = IV and M all zero (R18). -/
abbrev State.Fresh (s : State) : Prop := s.x = Quad.iv ∧ ∀ i < 16, s.word i = 0

/-- The steps of a transform are running: STEP counts (R23). -/
def State.stepping (s : State) : Bool := s.flight == some .transform || s.flight == some .digest

/-- What every step keeps: the buffer is in its canonical form, STEP is 0 unless steps are running (R23), and
ERR is set exactly when CAUSE holds a fault (R26, R27, R204). -/
def State.inv (s : State) : Bool :=
  Memory.wf s.mem && (s.stepping || s.stepCounter == 0) && (s.err == s.cause.isSome)

/-- `State.inv` as a proposition. -/
abbrev State.Inv (s : State) : Prop := s.inv = true

/-- Idle, STEP 0: what a command meets when it is accepted (R23, R82). -/
abbrev State.Idle (s : State) : Prop := s.flight = none ∧ s.stepCounter = 0

/-- Byte `a` of the block of a message of `len` bytes (R59): the message, 0x80, zeros, and from byte 56 on the
bit length, of which only the two low bytes can differ from 0 (R52). -/
def blockByte (len : BitVec 6) (msg : BitVec 440) (a : Nat) : Byte :=
  if a < len.toNat then msgByte msg a
  else if a = len.toNat then 0x80#8
  else if a = 56 then BitVec.ofNat 8 (8 * len.toNat)
  else if a = 57 then BitVec.ofNat 8 (8 * len.toNat / 256)
  else 0x00#8

/-- Word `i` of that block, its first byte in the low bits (R50). -/
def blockWord (len : BitVec 6) (msg : BitVec 440) (i : Nat) : Word :=
  wordOfBytes (blockByte len msg (4 * i)) (blockByte len msg (4 * i + 1)) (blockByte len msg (4 * i + 2))
    (blockByte len msg (4 * i + 3))

/-! ## The step and the rendering as the rules state them

Written from the closed forms of the rules and with Lean's own rotation, apart from the model's datapath. -/

/-- The function of quarter `q` (R88, R143 to R146). -/
def ruleFn (q : Nat) (b c d : Word) : Word :=
  if q = 0 then (b &&& c) ||| (~~~b &&& d)
  else if q = 1 then (b &&& d) ||| (c &&& ~~~d)
  else if q = 2 then b ^^^ c ^^^ d
  else c ^^^ (b ||| ~~~d)

/-- `MIDX(j)` by the closed form (R91). -/
def ruleMidx (j : Nat) : Nat :=
  if j / 16 = 0 then j % 16
  else if j / 16 = 1 then (5 * (j % 16) + 1) % 16
  else if j / 16 = 2 then (3 * (j % 16) + 5) % 16
  else 7 * (j % 16) % 16

/-- `S[j] = SROT[j div 16][j mod 4]` (R151). -/
def ruleRot (j : Nat) : Nat :=
  ([[7, 12, 17, 22], [5, 9, 14, 20], [4, 11, 16, 23], [6, 10, 15, 21]].getD (j / 16) []).getD (j % 4) 0

/-- Step `j` takes the registers `x` to `y` over the buffer words `w` (R155). -/
def StepRel (w : Nat → Word) (j : Nat) (x y : Quad) : Prop :=
  y.a = x.d ∧
  y.b = (x.a + ruleFn (j / 16) x.b x.c x.d + w (ruleMidx j) + romK.getD j 0).rotateLeft (ruleRot j) + x.b ∧
  y.c = x.b ∧
  y.d = x.c

/-- The 64 steps in order take `x` to `y` over the buffer words `w` (R160, R163). -/
def TransformRel (w : Nat → Word) (x y : Quad) : Prop :=
  ∃ q : Nat → Quad, q 0 = x ∧ (∀ j < 64, StepRel w j (q j) (q (j + 1))) ∧ q 64 = y

/-- `IV[i]` (R33). -/
def ruleIv (i : Nat) : Word := [0x67452301#32, 0xEFCDAB89#32, 0x98BADCFE#32, 0x10325476#32].getD i 0

/-- The character code of a nibble (R87). -/
def ruleCode (n : BitVec 4) : Byte :=
  BitVec.ofNat 8 (if n.toNat ≤ 9 then 0x30 + n.toNat else 0x37 + n.toNat)

/-- `digest` and `hex` are what FINALIZE makes of the registers `x` (R53, R86, R87, R180). -/
def DigestRel (x : Quad) (digest : BitVec 128) (hex : BitVec 256) : Prop :=
  (∀ i : Fin 4, ∀ k < 4,
    digest.extractLsb' (8 * (4 * i.val + k)) 8 = (x.get i + ruleIv i.val).extractLsb' (8 * k) 8) ∧
  (∀ b < 16,
    hex.extractLsb' (8 * (2 * b)) 8 = ruleCode (digest.extractLsb' (8 * b + 4) 4) ∧
    hex.extractLsb' (8 * (2 * b + 1)) 8 = ruleCode (digest.extractLsb' (8 * b) 4))

/-- Nothing at the coming edge but, at most, a command that the host holds (R82, R247). -/
def heldOnly : List Drive → Bool
  | .rst :: _ => false
  | .idle :: _ => false
  | .cmd _ _ :: _ => true
  | [] => true

end Sys2Proof.Machine
end

