-- ==== Sys2Proof/Certificates/Slice0/Obligations.lean ====
section
/-! DEFINITION. The statements for the provers. Each docstring names the rule of spec/ it rests on; where a
statement rests on a choice of the model, it names the entry of notes/assumptions. -/

open Sys2Proof Sys2Proof.Machine

/-! ## Reset -/

/-- R230, R38: the values of the reset state. (`port` and `view` are the model's own: entries 1 and 2.) -/
def Obligations.ResetStateHasTheSpecsValues : Prop :=
  State.reset.x.a = 0x67452301#32 ∧ State.reset.x.b = 0xEFCDAB89#32 ∧
  State.reset.x.c = 0x98BADCFE#32 ∧ State.reset.x.d = 0x10325476#32 ∧
  (∀ i < 16, State.reset.word i = 0) ∧ State.reset.stepCounter = 0 ∧ State.reset.busy = false ∧
  State.reset.err = false ∧ causeCode State.reset.cause = 0 ∧ State.reset.status = 0x000#10 ∧
  State.reset.cmdReady = true

/-- R110: HWRESET from every state, also one that was never reset or has a command in flight; the pin high
is HWRESET and the pin low is none. -/
def Obligations.HwresetWritesTheResetState : Prop :=
  decode (.pin 1#1) = .ok .hwreset ∧
  ∀ s : State, ∃ t, exec .hwreset s = .next t ∧
    t.x.a = 0x67452301#32 ∧ t.x.b = 0xEFCDAB89#32 ∧ t.x.c = 0x98BADCFE#32 ∧ t.x.d = 0x10325476#32 ∧
    (∀ a, memReadByte t.mem a = 0) ∧ t.stepCounter = 0 ∧ t.busy = false ∧ t.err = false ∧ t.cause = none ∧
    t.rsp = none ∧ t.port = s.port ∧ t.view = s.view

/-- R111: at an edge with `rst` = 1 the state becomes the reset state, whatever is in flight and at whatever
step, and no response is produced. -/
def Obligations.HwresetHasPriorityOverEverything : Prop :=
  ∀ (s : State) (rest : List Drive), s.port = .rst :: rest →
    step s = .next { State.reset with port := rest, view := s.view }

/-- R112: the RESET command, for every value of the ignored `len` and `cmd_msg`. -/
def Obligations.ResetCommandRestoresTheConstants : Prop :=
  (∀ (len : BitVec 6) (msg : BitVec 440), decode (.cmd (len ++ 0b000#3) msg) = .ok .reset) ∧
  ∀ s : State, ∃ t, exec .reset s = .next t ∧
    t.x.a = 0x67452301#32 ∧ t.x.b = 0xEFCDAB89#32 ∧ t.x.c = 0x98BADCFE#32 ∧ t.x.d = 0x10325476#32 ∧
    (∀ a, memReadByte t.mem a = 0) ∧ t.err = false ∧ t.cause = none ∧
    t.rsp = some .ok ∧ t.busy = false ∧ t.stepCounter = s.stepCounter ∧ t.port = s.port ∧ t.view = s.view

/-- R113: RESET of an idle engine leaves the state HWRESET leaves (with an OK response), and a second RESET
changes nothing. -/
def Obligations.ResetTwiceIsResetOnce : Prop :=
  ∀ s : State, s.Idle →
    ∃ t, exec .reset s = .next t ∧ exec .reset t = .next t ∧
      exec .hwreset s = .next { t with rsp := none }

/-- R113, R188(a): nothing from before a RESET survives it. After a RESET, a DIGEST of a given message gives
one response and one register and buffer content, whatever idle state the RESET met. -/
def Obligations.NothingSurvivesAReset : Prop :=
  ∀ (s s' t t' : State) (len : BitVec 6) (msg : BitVec 440), s.Idle → s'.Idle →
    exec .reset s = .next t → exec .reset s' = .next t' →
    ∃ u u', exec (.digest len msg) t = .next u ∧ exec (.digest len msg) t' = .next u' ∧
      u.rsp = u'.rsp ∧ u.x = u'.x ∧ u.mem = u'.mem ∧ u.status = u'.status

/-! ## ENCODE -/

/-- R120 to R123: the words ENCODE writes, those it leaves, and the fault of a length above 55. -/
def Obligations.EncodeWritesThePaddedMessage : Prop :=
  (∀ (len : BitVec 6) (msg : BitVec 440), msg.toNat < 2 ^ (8 * len.toNat) →
    decode (.cmd (len ++ 0b001#3) msg) = .ok (.encode len msg)) ∧
  ∀ (len : BitVec 6) (msg : BitVec 440) (s : State), ∃ t, exec (.encode len msg) s = .next t ∧
    t.x = s.x ∧ t.stepCounter = s.stepCounter ∧ t.busy = false ∧ t.port = s.port ∧ t.view = s.view ∧
    (55 < len.toNat →
      t.mem = s.mem ∧ t.err = true ∧ t.cause = some .msgTooLong ∧ t.rsp = some (.rejected .msgTooLong)) ∧
    (len.toNat ≤ 55 →
      t.err = s.err ∧ t.cause = s.cause ∧ t.rsp = some .ok ∧
      (∀ i < (len.toNat + 4) / 4, ∀ k < 4, (t.word i).extractLsb' (8 * k) 8 =
        if 4 * i + k < len.toNat then msg.extractLsb' (8 * (4 * i + k)) 8
        else if 4 * i + k = len.toNat then 0x80#8 else 0x00#8) ∧
      t.word 14 = BitVec.ofNat 32 (8 * len.toNat) ∧ t.word 15 = 0 ∧
      (∀ a, (len.toNat + 4) / 4 ≤ a / 4 → a / 4 ≠ 14 → a / 4 ≠ 15 →
        memReadByte t.mem a = memReadByte s.mem a))

/-- R124: a length above 55 raises MsgTooLong; the data state and STEP are unchanged. -/
def Obligations.EncodeTooLongWritesNothing : Prop :=
  ∀ (len : BitVec 6) (msg : BitVec 440) (s : State), 55 < len.toNat →
    ∃ t, exec (.encode len msg) s = .next t ∧ t.mem = s.mem ∧ t.x = s.x ∧ t.stepCounter = s.stepCounter ∧
      t.err = true ∧ causeCode t.cause = 1 ∧ t.rspStatus = some 1 ∧ t.rspDigest = none ∧ t.rspHex = none ∧
      t.busy = false

/-- R50, R51: byte `a` of the message is byte `a mod 4` of word `a div 4`, and the terminator 0x80 is byte
`len mod 4` of word `len div 4`. -/
def Obligations.MessageIsPackedLittleEndian : Prop :=
  ∀ (len : BitVec 6) (msg : BitVec 440) (s : State), len.toNat ≤ 55 →
    ∃ t, exec (.encode len msg) s = .next t ∧
      (∀ a < len.toNat, (t.word (a / 4)).extractLsb' (8 * (a % 4)) 8 = msg.extractLsb' (8 * a) 8) ∧
      (t.word (len.toNat / 4)).extractLsb' (8 * (len.toNat % 4)) 8 = 0x80#8

/-- R59: on a zero buffer one ENCODE leaves exactly the block of the message, in all 64 bytes. -/
def Obligations.EncodeOnAZeroBufferMakesTheBlock : Prop :=
  ∀ (len : BitVec 6) (msg : BitVec 440) (s : State), len.toNat ≤ 55 → (∀ i < 16, s.word i = 0) →
    ∃ t, exec (.encode len msg) s = .next t ∧ ∀ a < 64, memReadByte t.mem a = blockByte len msg a

/-- R126: after a longer message and a shorter one with no RESET between, the words that the second ENCODE
does not write still hold the first message's packed bytes. -/
def Obligations.StaleWordsSurviveAShorterEncode : Prop :=
  ∀ (len1 len2 : BitVec 6) (msg1 msg2 : BitVec 440) (s : State), len1.toNat ≤ 55 → len2.toNat ≤ 55 →
    ∃ t u, exec (.encode len1 msg1) s = .next t ∧ exec (.encode len2 msg2) t = .next u ∧
      ∀ i, (len2.toNat + 4) / 4 ≤ i → i < (len1.toNat + 4) / 4 → ∀ k < 4,
        (u.word i).extractLsb' (8 * k) 8 =
          if 4 * i + k < len1.toNat then msg1.extractLsb' (8 * (4 * i + k)) 8
          else if 4 * i + k = len1.toNat then 0x80#8 else 0x00#8

/-- R127: an ENCODE that writes at least as many words as the one before it leaves M as it alone would. -/
def Obligations.LongerEncodeHidesTheEarlierOne : Prop :=
  ∀ (len1 len2 : BitVec 6) (msg1 msg2 : BitVec 440) (s : State), len1.toNat ≤ 55 → len2.toNat ≤ 55 →
    (len1.toNat + 4) / 4 ≤ (len2.toNat + 4) / 4 →
    ∃ t u v, exec (.encode len1 msg1) s = .next t ∧ exec (.encode len2 msg2) t = .next u ∧
      exec (.encode len2 msg2) s = .next v ∧ ∀ a, memReadByte u.mem a = memReadByte v.mem a

/-- R84, U8: two message buses that agree below `len` give the same decoded command and the same effect. -/
def Obligations.MessageBytesFromLenOnAreIgnored : Prop :=
  ∀ (len : BitVec 6) (msg msg' : BitVec 440) (s : State),
    (∀ a < len.toNat, msg.extractLsb' (8 * a) 8 = msg'.extractLsb' (8 * a) 8) →
    (∀ op : BitVec 3, decode (.cmd (len ++ op) msg) = decode (.cmd (len ++ op) msg')) ∧
    exec (.encode len msg) s = exec (.encode len msg') s ∧ exec (.digest len msg) s = exec (.digest len msg') s

/-! ## Steps and TRANSFORM -/

/-- R155 to R159: each of the four micro-operations, at each of its sixteen positions: its encoding, the
registers and STEP after it, and everything else unchanged. -/
def Obligations.StepsDoTheirRound : Prop :=
  ∀ (i : BitVec 4) (s : State) (q : Nat), q < 4 →
    ∃ instr, [Instr.stepF i, Instr.stepG i, Instr.stepH i, Instr.stepI i][q]? = some instr ∧
      decode (.step (BitVec.ofNat 2 q ++ i)) = .ok instr ∧
      ∃ t, exec instr s = .next t ∧
        StepRel s.word (16 * q + i.toNat) s.x t.x ∧
        t.stepCounter = BitVec.ofNat 6 ((16 * q + i.toNat + 1) % 64) ∧
        t.mem = s.mem ∧ t.flight = s.flight ∧ t.err = s.err ∧ t.cause = s.cause ∧ t.rsp = s.rsp ∧
        t.port = s.port ∧ t.view = s.view

/-- R160, R162: TRANSFORM performs the 64 steps in order over M as it is, from the registers as they are. -/
def Obligations.TransformRunsTheSixtyFourSteps : Prop :=
  (∀ (len : BitVec 6) (msg : BitVec 440), decode (.cmd (len ++ 0b010#3) msg) = .ok .transform) ∧
  ∀ s : State, ∃ t, exec .transform s = .next t ∧
    TransformRel s.word s.x t.x ∧ t.mem = s.mem ∧ t.stepCounter = 0 ∧ t.busy = false ∧
    t.err = s.err ∧ t.cause = s.cause ∧ t.rsp = some .ok ∧ t.port = s.port ∧ t.view = s.view

/-- R165: a step can be undone, so for a fixed buffer distinct registers stay distinct under every step and
under TRANSFORM. -/
def Obligations.TransformIsInjective : Prop :=
  ∀ (m : Memory) (x y : Quad),
    (∀ j : BitVec 6, stepQuad (roundFn (quarter j)) j m x = stepQuad (roundFn (quarter j)) j m y → x = y) ∧
    (transformQuad m x = transformQuad m y → x = y)

/-- R143 to R147: the four functions bit by bit, and G as F of the other order. -/
def Obligations.RoundFunctionsBitByBit : Prop :=
  ∀ b c d : Word,
    (∀ k < 32,
      (roundF b c d).getLsbD k = (if b.getLsbD k then c.getLsbD k else d.getLsbD k) ∧
      (roundG b c d).getLsbD k = (if d.getLsbD k then b.getLsbD k else c.getLsbD k) ∧
      (roundH b c d).getLsbD k = xor (xor (b.getLsbD k) (c.getLsbD k)) (d.getLsbD k) ∧
      (roundI b c d).getLsbD k = xor (c.getLsbD k) (b.getLsbD k || !d.getLsbD k)) ∧
    roundG b c d = roundF d b c

/-- R141: bit `i` of `rotl32(a, n)` is bit `(i − n) mod 32` of `a`, for 0 < n < 32. -/
def Obligations.RotationMovesEveryBit : Prop :=
  ∀ (a : Word) (n i : Nat), 0 < n → n < 32 → i < 32 →
    (rotl32 a n).getLsbD i = a.getLsbD ((i + 32 - n) % 32)

/-- R151, R152, R91, R92: the rotate amounts and the index decoder agree with their closed forms, every amount
is in 4..23, and every buffer word is read exactly once in each quarter. -/
def Obligations.StepTablesHaveTheirStatedForm : Prop :=
  (∀ j : BitVec 6, (rotAmount j).toNat = ruleRot j.toNat ∧ (midx j).toNat = ruleMidx j.toNat ∧
    4 ≤ (rotAmount j).toNat ∧ (rotAmount j).toNat ≤ 23) ∧
  (∀ (q : BitVec 2) (g : BitVec 4), ∃ i : BitVec 4, midx (q ++ i) = g ∧ ∀ i' : BitVec 4, midx (q ++ i') = g → i' = i)

/-! ## FINALIZE and DIGEST -/

/-- R180, R86, R87, R53: what FINALIZE answers, and that it writes nothing but the response. -/
def Obligations.FinalizeRendersTheDigest : Prop :=
  (∀ (len : BitVec 6) (msg : BitVec 440), decode (.cmd (len ++ 0b011#3) msg) = .ok .finalize) ∧
  ∀ s : State, ∃ t digest hex, exec .finalize s = .next t ∧ t.rsp = some (.okDigest digest hex) ∧
    DigestRel s.x digest hex ∧
    digest = (s.x.d + 0x10325476#32) ++ (s.x.c + 0x98BADCFE#32) ++ (s.x.b + 0xEFCDAB89#32) ++ (s.x.a + 0x67452301#32) ∧
    t.x = s.x ∧ t.mem = s.mem ∧ t.stepCounter = s.stepCounter ∧ t.busy = false ∧ t.err = s.err ∧
    t.cause = s.cause ∧ t.port = s.port ∧ t.view = s.view

/-- R182: the digest string is 32 characters of "0123456789ABCDEF", also of a DIGEST. -/
def Obligations.DigestStringIsUpperCaseHex : Prop :=
  ∀ (s : State) (len : BitVec 6) (msg : BitVec 440), len.toNat ≤ 55 →
    ∃ t u hex hex', exec .finalize s = .next t ∧ t.rspHex = some hex ∧
      exec (.digest len msg) s = .next u ∧ u.rspHex = some hex' ∧
      ∀ c < 32, ∀ h ∈ [hex, hex'],
        (0x30 ≤ (h.extractLsb' (8 * c) 8).toNat ∧ (h.extractLsb' (8 * c) 8).toNat ≤ 0x39) ∨
        (0x41 ≤ (h.extractLsb' (8 * c) 8).toNat ∧ (h.extractLsb' (8 * c) 8).toNat ≤ 0x46)

/-- R183: two FINALIZEs with no command between return identical responses, and the second changes nothing. -/
def Obligations.FinalizeTwiceAnswersTheSame : Prop :=
  ∀ s : State, ∃ t, exec .finalize s = .next t ∧ exec .finalize t = .next t

/-- R185: DIGEST is ENCODE, TRANSFORM, FINALIZE issued one after the other, in state and response; a length
above 55 faults as a whole. -/
def Obligations.DigestIsEncodeTransformFinalize : Prop :=
  (∀ (len : BitVec 6) (msg : BitVec 440), msg.toNat < 2 ^ (8 * len.toNat) →
    decode (.cmd (len ++ 0b100#3) msg) = .ok (.digest len msg)) ∧
  (∀ (len : BitVec 6) (msg : BitVec 440) (s : State), len.toNat ≤ 55 →
    ∃ t u v, exec (.encode len msg) s = .next t ∧ exec .transform t = .next u ∧ exec .finalize u = .next v ∧
      exec (.digest len msg) s = .next v) ∧
  (∀ (len : BitVec 6) (msg : BitVec 440) (s : State), 55 < len.toNat →
    exec (.digest len msg) s = exec (.encode len msg) s)

/-- R187: a DIGEST of more than 55 bytes does nothing but fault. -/
def Obligations.DigestTooLongFaultsAsAWhole : Prop :=
  ∀ (len : BitVec 6) (msg : BitVec 440) (s : State), 55 < len.toNat →
    ∃ t, exec (.digest len msg) s = .next t ∧ t.mem = s.mem ∧ t.x = s.x ∧ t.stepCounter = s.stepCounter ∧
      t.err = true ∧ causeCode t.cause = 1 ∧ t.rspStatus = some 1 ∧ t.rspDigest = none ∧ t.rspHex = none ∧
      t.busy = false

/-- R186, R241: DIGEST starts from whatever the registers hold and leaves the transformed values, without IV
added; the buffer it transforms is the one that ENCODE leaves, stale words included. -/
def Obligations.DigestChainsFromTheHeldRegisters : Prop :=
  ∀ (len : BitVec 6) (msg : BitVec 440) (s : State), len.toNat ≤ 55 →
    ∃ e t, exec (.encode len msg) s = .next e ∧ exec (.digest len msg) s = .next t ∧
      t.mem = e.mem ∧ TransformRel e.word s.x t.x ∧ t.stepCounter = 0 ∧ t.busy = false ∧ t.err = s.err ∧
      t.cause = s.cause ∧ t.port = s.port ∧ t.view = s.view

/-- R189, R240: on a fresh engine DIGEST answers the rendering of the 64 steps from IV over the message's
block (R59), IV added: the single-block MD5 of the message, for every message of at most 55 bytes. -/
def Obligations.DigestOnAFreshEngineIsTheMessageDigest : Prop :=
  ∀ (len : BitVec 6) (msg : BitVec 440) (s : State), len.toNat ≤ 55 → s.Fresh →
    ∃ t y digest hex, exec (.digest len msg) s = .next t ∧ t.rsp = some (.okDigest digest hex) ∧
      TransformRel (blockWord len msg) Quad.iv y ∧ DigestRel y digest hex ∧ t.x = y

/-! ## Faults and flags -/

/-- R93, R202: the three reserved opcodes, for every `len` and `cmd_msg`. -/
def Obligations.ReservedOpcodesRaiseIllegalCommand : Prop :=
  ∀ (op : BitVec 3) (len : BitVec 6) (msg : BitVec 440) (s : State), 5 ≤ op.toNat →
    ∃ i, decode (.cmd (len ++ op) msg) = .ok i ∧ i ∈ [Instr.reserved5, Instr.reserved6, Instr.reserved7] ∧
      (op.toNat = 5 → i = .reserved5) ∧ (op.toNat = 6 → i = .reserved6) ∧ (op.toNat = 7 → i = .reserved7) ∧
      ∃ t, exec i s = .next t ∧ t.x = s.x ∧ t.mem = s.mem ∧ t.stepCounter = s.stepCounter ∧ t.err = true ∧
        causeCode t.cause = 2 ∧ t.rspStatus = some 2 ∧ t.rspDigest = none ∧ t.rspHex = none ∧ t.busy = false ∧
        t.port = s.port ∧ t.view = s.view

/-- R204: whatever command answers a fault has changed nothing but ERR and CAUSE. -/
def Obligations.FaultsArePrecise : Prop :=
  ∀ (i : Instr) (s t : State) (f : CommandFault), s.rsp = none → exec i s = .next t → t.rsp = some (.rejected f) →
    t.x = s.x ∧ t.mem = s.mem ∧ t.stepCounter = s.stepCounter ∧ t.err = true ∧ t.cause = some f ∧ t.busy = false ∧
    t.rspStatus = some (causeCode t.cause) ∧ t.rspDigest = none ∧ t.rspHex = none

/-- R200, R203: a command faults exactly when it is an ENCODE or DIGEST of more than 55 bytes or a reserved
opcode; in particular no RESET, TRANSFORM, FINALIZE and no step faults. -/
def Obligations.OnlyTheTwoFaultsExist : Prop :=
  ∀ (i : Instr) (s : State), s.rsp = none →
    ∃ t, exec i s = .next t ∧
      ((∃ f, t.rsp = some (.rejected f)) ↔
        (∃ len msg, (i = .encode len msg ∨ i = .digest len msg) ∧ 55 < len.toNat) ∨
        i = .reserved5 ∨ i = .reserved6 ∨ i = .reserved7)

/-- R26, R27, R205: ERR and CAUSE are cleared only by RESET and HWRESET. -/
def Obligations.OnlyResetsClearTheFaultRecord : Prop :=
  ∀ (i : Instr) (s t : State), i ≠ .reset → i ≠ .hwreset → exec i s = .next t →
    (s.err = true → t.err = true) ∧ (s.cause ≠ none → t.cause ≠ none)

/-- R26: ERR changes the behaviour of no command, and neither does CAUSE. -/
def Obligations.ErrAffectsNoCommand : Prop :=
  ∀ (i : Instr) (s : State) (e : Bool) (c : Option CommandFault),
    ∃ t u, exec i s = .next t ∧ exec i { s with err := e, cause := c } = .next u ∧
      u.x = t.x ∧ u.mem = t.mem ∧ u.stepCounter = t.stepCounter ∧ u.flight = t.flight ∧ u.rsp = t.rsp ∧
      u.port = t.port ∧ u.view = t.view

/-- R27, R81: the fields of STATUS, `cmd_ready`, and the codes that are never produced. -/
def Obligations.StatusShowsTheFlags : Prop :=
  ∀ s : State,
    s.status.getLsbD 0 = s.busy ∧ s.status.getLsbD 1 = s.err ∧ s.status.extractLsb' 2 2 = causeCode s.cause ∧
    s.status.extractLsb' 4 6 = s.stepCounter ∧ s.status.extractLsb' 2 2 ≠ 3 ∧ s.rspStatus ≠ some 3 ∧
    s.cmdReady = !s.busy

/-! ## Whole-machine rules -/

/-- R251, R95: every instruction and every step answers a next state; the model never stops. -/
def Obligations.EveryInstructionCompletes : Prop :=
  (∀ (i : Instr) (s : State), ∃ t, exec i s = .next t) ∧ ∀ s : State, ∃ t, step s = .next t

/-- R21, R24, R30: who writes what. The buffer is written only by RESET, HWRESET, ENCODE and DIGEST; the
registers only by the resets, the steps, TRANSFORM and DIGEST; STEP only by HWRESET, the steps, TRANSFORM and
DIGEST; what the host drives and the view by no instruction. -/
def Obligations.OnlyTheNamedInstructionsWrite : Prop :=
  ∀ (i : Instr) (s t : State), exec i s = .next t →
    ((∀ len msg, i ≠ .encode len msg ∧ i ≠ .digest len msg) → i ≠ .reset → i ≠ .hwreset →
      ∀ a, memReadByte t.mem a = memReadByte s.mem a) ∧
    ((∃ len msg, i = .encode len msg) ∨ i = .finalize ∨ i = .reserved5 ∨ i = .reserved6 ∨ i = .reserved7 →
      t.x = s.x) ∧
    ((∃ len msg, i = .encode len msg) ∨ i = .reset ∨ i = .finalize ∨ i = .reserved5 ∨ i = .reserved6 ∨ i = .reserved7 →
      t.stepCounter = s.stepCounter) ∧
    t.port = s.port ∧ t.view = s.view

/-- First clause (R14, R58): at a multiple of 4 in 0..60 a word written is read back and the other addresses are as
before. Second clause: at any other address MemRead and MemWrite stop; that is the model's choice, assumption
entry 14 (DEDUCED), since R14 does not say what such an address does. -/
def Obligations.BufferReadsWhatWasWritten : Prop :=
  ∀ (m : Memory) (a : Nat) (w : Word),
    (a % 4 = 0 ∧ a ≤ 60 →
      ∃ m', memWrite m a w = .ok m' ∧ memRead m' a = .ok w ∧ ∀ b ≠ a, memRead m' b = memRead m b) ∧
    (¬ (a % 4 = 0 ∧ a ≤ 60) →
      memWrite m a w = .error (.noSuchBufferAddress a) ∧ memRead m a = .error (.noSuchBufferAddress a))

/-! ## Decoding -/

/-- R83, R88, R99, R110: words written out from the spec's encodings. -/
def Obligations.SpecWordsDecode : Prop :=
  decode (.cmd 0x000#9 0) = .ok .reset ∧
  decode (.cmd 0x019#9 0x636261) = .ok (.encode 3 0x636261) ∧
  decode (.cmd 0x002#9 0) = .ok .transform ∧
  decode (.cmd 0x003#9 0) = .ok .finalize ∧
  decode (.cmd 0x00C#9 0x61) = .ok (.digest 1 0x61) ∧
  decode (.cmd 0x1C1#9 0) = .ok (.encode 56 0) ∧
  decode (.cmd 0x1FD#9 0) = .ok .reserved5 ∧
  decode (.step 0b000101#6) = .ok (.stepF 5) ∧
  decode (.step 0b010000#6) = .ok (.stepG 0) ∧
  decode (.step 0b101000#6) = .ok (.stepH 8) ∧
  decode (.step 0b111111#6) = .ok (.stepI 15) ∧
  decode (.pin 1#1) = .ok .hwreset ∧ decode (.pin 0#1) = .error .pinLow

/-- R83, R84, R88, R110: decoding the encoding of a well-formed instruction gives it back, on the ports and in
the one number of `encodedBits` (the layout of that number is the model's choice: entry 5). -/
def Obligations.DecodeOfEncodeIsTheInstruction : Prop :=
  ∀ i : Instr, i.WellFormed →
    decode (encode i) = .ok i ∧ decodeBits (encodedFormat (encode i)) (encodedBits (encode i)) = .ok i

/-- R95, R96: every command word with every message bus and every step index decodes, to a well-formed
instruction; and encoding it again gives the opcode, and for ENCODE and DIGEST the length and the used message
bytes, and the step index. -/
def Obligations.EveryWordDecodes : Prop :=
  (∀ (len : BitVec 6) (op : BitVec 3) (msg : BitVec 440), ∃ i, decode (.cmd (len ++ op) msg) = .ok i ∧ i.WellFormed ∧
    ∃ len' msg', encode i = .cmd (len' ++ op) msg' ∧
      (op = 1#3 ∨ op = 4#3 → len' = len ∧
        ∀ a < len.toNat, msg'.extractLsb' (8 * a) 8 = msg.extractLsb' (8 * a) 8)) ∧
  (∀ j : BitVec 6, ∃ i, decode (.step j) = .ok i ∧ i.WellFormed ∧ encode i = .step j)

/-- R94: the unused fields are ignored, a length of 56 to 63 raises MsgTooLong, and the encoder emits 0. -/
def Obligations.UnusedFieldsAreIgnored : Prop :=
  (∀ (op : BitVec 3) (len len' : BitVec 6) (msg msg' : BitVec 440), op ≠ 1#3 → op ≠ 4#3 →
    decode (.cmd (len ++ op) msg) = decode (.cmd (len' ++ op) msg')) ∧
  (∀ (len : BitVec 6) (msg : BitVec 440) (s : State), 56 ≤ len.toNat → ∃ t u,
    exec (.encode len msg) s = .next t ∧ t.rsp = some (.rejected .msgTooLong) ∧
    exec (.digest len msg) s = .next u ∧ u.rsp = some (.rejected .msgTooLong)) ∧
  encode .reset = .cmd 0x000#9 0 ∧ encode .transform = .cmd 0x002#9 0 ∧ encode .finalize = .cmd 0x003#9 0

/-! ## The step of the machine -/

/-- R82, R88, R111: a step runs the decoded instruction. With the reset pin high it is HWRESET. With a command
presented to an idle engine in the command view (entry 1) it is that command. With the steps of a TRANSFORM or
DIGEST running it is the micro-operation at STEP, after the last of which the command is completed. Around
`exec` the response of the edge before is gone, what the host drove is consumed, and a presented command is
held while BUSY. -/
def Obligations.StepRunsTheDecodedInstruction : Prop :=
  (∀ (s : State) (rest : List Drive), s.port = .rst :: rest →
    step s = exec .hwreset { s with rsp := none, port := rest }) ∧
  (∀ (s : State) (word : BitVec 9) (msg : BitVec 440) (rest : List Drive) (i : Instr),
    s.flight = none → s.view = .command → s.port = .cmd word msg :: rest → decode (.cmd word msg) = .ok i →
    step s = exec i { s with rsp := none, port := rest }) ∧
  (∀ (s : State) (f : Flight) (i : Instr),
    s.flight = some f → s.stepping = true → s.rst = false → decode (.step s.stepCounter) = .ok i →
    ∃ t, exec i { s with rsp := none, port := holdCommand s.port } = .next t ∧
      step s = .next (if s.stepCounter = 63#6 then t.complete f else t))

/-- R24, R26, R82: while the steps run, STEP advances by 1 and BUSY stays 1 with no response; the step at 63 sets
STEP back to 0 and with it come the response and BUSY = 0. -/
def Obligations.SequencerWalksThroughStep : Prop :=
  ∀ s : State, s.stepping = true → s.rst = false →
    ∃ t, step s = .next t ∧ t.stepCounter = s.stepCounter + 1 ∧ t.mem = s.mem ∧ t.err = s.err ∧ t.cause = s.cause ∧
      (s.stepCounter ≠ 63#6 → t.flight = s.flight ∧ t.busy = true ∧ t.rspValid = false) ∧
      (s.stepCounter = 63#6 → t.busy = false ∧ t.rspValid = true ∧ t.stepCounter = 0)

/-- R82, R247: while BUSY a presented command is not accepted, stays presented, and disturbs nothing: but for
what stays presented, the step is that of an engine to which nothing is presented. -/
def Obligations.PresentedCommandWaitsWhileBusy : Prop :=
  ∀ (s : State) (word : BitVec 9) (msg : BitVec 440) (rest : List Drive), s.busy = true → s.port = .cmd word msg :: rest →
    s.accepts = false ∧
    ∃ t, step s = .next t ∧ t.port = s.port ∧ step { s with port := [] } = .next { t with port := [] }

/-- R82: in the command view (entry 1) every accepted command has exactly one response, present until the
next edge: the step answers with one, and the step after it, if nothing new is presented, has none. -/
def Obligations.EveryCommandHasOneResponse : Prop :=
  ∀ (s : State) (word : BitVec 9) (msg : BitVec 440), s.flight = none → s.view = .command → s.port = [.cmd word msg] →
    s.accepts = true ∧
    ∃ t u, step s = .next t ∧ t.rspValid = true ∧ t.busy = false ∧ step t = .next u ∧ u.rspValid = false ∧
      u.x = t.x ∧ u.mem = t.mem ∧ u.status = t.status

/-- R17, R217: with no command in flight and none presented, the engine holds all its state. -/
def Obligations.IdleEngineHoldsItsState : Prop :=
  ∀ (s : State) (rest : List Drive), s.flight = none →
    (s.port = [] → step s = .next { s with rsp := none }) ∧
    (s.port = .idle :: rest → step s = .next { s with rsp := none, port := rest })

/-- What every step keeps, from every state that has it: the canonical form of the buffer (entry 7), STEP = 0
unless steps are running (R23), and ERR = 1 exactly when CAUSE holds a fault (R26, R27). -/
def Obligations.EveryStepKeepsTheInvariant : Prop :=
  ∀ s t : State, s.Inv → step s = .next t → t.Inv

/-- The reset state has what every step keeps. -/
def Obligations.ResetStateHasTheInvariant : Prop := State.reset.Inv

/-- R163: the two views agree. From an idle engine with a command presented, and nothing at the edges after it but
a command that is held, the transitions of the sequencer view (for TRANSFORM and DIGEST one acceptance and 64
steps) reach the state and the response that the command view reaches in one. (That `view` is a field of
the state, and when a command without steps responds, are the model's choices: entries 1 and 4.) -/
def Obligations.TheTwoViewsAgree : Prop :=
  ∀ (s : State) (word : BitVec 9) (msg : BitVec 440) (rest : List Drive),
    s.flight = none → s.view = .sequencer → s.port = .cmd word msg :: rest → heldOnly rest = true →
    ∃ t, step { s with view := .command } = .next t ∧
      Host.Core.run core (edgesOf (decodeCmd word msg)) s = .next { t with view := .sequencer }
end

