-- ==== Sys2Proof/Laws/Memory.lean ====
section
/-! SUPPORT. What the buffer's operations do: a read after a write, words from bytes, the canonical form. -/

namespace Sys2Proof.Machine

/-! ## Bytes -/

theorem memReadByte_erase_same (a : Nat) (m : Memory) : memReadByte (memErase a m) a = memUnlisted := by
  induction m with
  | nil => rfl
  | cons c m ih =>
    obtain ⟨k, v⟩ := c
    by_cases h : k = a
    · simpa [memErase, h] using ih
    · simpa [memErase, memReadByte, h] using ih

theorem memReadByte_erase_other {a b : Nat} (h : b ≠ a) (m : Memory) :
    memReadByte (memErase a m) b = memReadByte m b := by
  induction m with
  | nil => rfl
  | cons c m ih =>
    obtain ⟨k, v⟩ := c
    by_cases hk : k = a
    · simpa [memErase, memReadByte, hk, h.symm] using ih
    · by_cases hb : k = b
      · simp [memErase, memReadByte, hb, h]
      · simpa [memErase, memReadByte, hk, hb] using ih

theorem memReadByte_insert (a b : Nat) (v : Byte) (m : Memory) (h : memReadByte m a = memUnlisted)
    (hk : ∀ c ∈ m, c.1 ≠ a) :
    memReadByte (memInsert a v m) b = if b = a then v else memReadByte m b := by
  induction m with
  | nil => simp [memInsert, memReadByte, eq_comm]
  | cons c m ih =>
    obtain ⟨k, u⟩ := c
    have hka : k ≠ a := hk (k, u) (by simp)
    have hm : memReadByte m a = memUnlisted := by simpa [memReadByte, hka] using h
    have ih := ih hm (fun c hc => hk c (by simp [hc]))
    by_cases hlt : a < k
    · simp [memInsert, memReadByte, hlt, eq_comm]
    · by_cases hb : k = b
      · subst hb
        simp [memInsert, memReadByte, hlt, hka]
      · simp [memInsert, memReadByte, hlt, hb, ih]

theorem memErase_keys (a : Nat) (m : Memory) : ∀ c ∈ memErase a m, c.1 ≠ a := by
  induction m with
  | nil => simp [memErase]
  | cons c m ih =>
    obtain ⟨k, u⟩ := c
    by_cases hk : k = a
    · simpa [memErase, hk] using ih
    · intro c hc
      simp only [memErase, hk, if_false, List.mem_cons] at hc
      rcases hc with rfl | hc
      · exact hk
      · exact ih c hc

/-- A byte written is the byte read; every other byte is as before (R58). -/
theorem memReadByte_writeByte (m : Memory) (a b : Nat) (v : Byte) :
    memReadByte (memWriteByte m a v) b = if b = a then v else memReadByte m b := by
  unfold memWriteByte
  by_cases hv : v = memUnlisted
  · by_cases hb : b = a
    · simp [hv, hb, memReadByte_erase_same]
    · simp [hv, hb, memReadByte_erase_other hb]
  · rw [if_neg hv, memReadByte_insert a b v _ (memReadByte_erase_same a m) (memErase_keys a m)]
    by_cases hb : b = a
    · simp [hb]
    · simp [hb, memReadByte_erase_other hb]

/-! ## Words -/

/-- Byte `k` of four joined bytes (R53). -/
theorem byteOfWord_wordOfBytes (b0 b1 b2 b3 : Byte) (k : Nat) (h : k < 4) :
    byteOfWord (wordOfBytes b0 b1 b2 b3) k = if k = 0 then b0 else if k = 1 then b1 else if k = 2 then b2 else b3 := by
  have hk : k = 0 ∨ k = 1 ∨ k = 2 ∨ k = 3 := by omega
  rcases hk with rfl | rfl | rfl | rfl <;>
    (apply BitVec.eq_of_getLsbD_eq; intro i hi
     simp only [byteOfWord, wordOfBytes, BitVec.getLsbD_extractLsb', BitVec.getLsbD_append, hi, decide_true, Bool.true_and])
  · simp [hi]
  · simp [hi, show ¬ 8 + i < 8 by omega]
  · simp [hi, show ¬ 8 * 2 + i < 8 by omega, show ¬ 16 + i - 8 < 8 by omega, show 16 + i - 8 - 8 = i by omega]
  · simp [hi, show ¬ 24 + i < 8 by omega, show ¬ 24 + i - 8 < 8 by omega, show ¬ 24 + i - 8 - 8 < 8 by omega,
      show 24 + i - 8 - 8 - 8 = i by omega]

/-- The byte view of a word of the buffer (R14). -/
theorem byteOfWord_readWord (m : Memory) (a : Nat) : byteOfWord (readWord m (a / 4)) (a % 4) = memReadByte m a := by
  rw [readWord, byteOfWord_wordOfBytes _ _ _ _ _ (by omega)]
  split_ifs <;> congr 1 <;> omega

@[simp] theorem wordOfBytes_byteOfWord (w : Word) :
    wordOfBytes (byteOfWord w 0) (byteOfWord w 1) (byteOfWord w 2) (byteOfWord w 3) = w := by
  apply BitVec.eq_of_getLsbD_eq
  intro i hi
  simp only [wordOfBytes, byteOfWord, BitVec.getLsbD_append, BitVec.getLsbD_extractLsb']
  have h8 : i < 8 ∨ 8 ≤ i := by omega
  have h16 : i < 16 ∨ 16 ≤ i := by omega
  have h24 : i < 24 ∨ 24 ≤ i := by omega
  rcases h8 with h8 | h8
  · simp [h8]
  rcases h16 with h16 | h16
  · simp [show ¬ i < 8 by omega, show i - 8 < 8 by omega, show 8 + (i - 8) = i by omega]
  rcases h24 with h24 | h24
  · simp [show ¬ i < 8 by omega, show ¬ i - 8 < 8 by omega, show i - 8 - 8 < 8 by omega,
      show 16 + (i - 8 - 8) = i by omega]
  · simp [show ¬ i < 8 by omega, show ¬ i - 8 < 8 by omega, show ¬ i - 8 - 8 < 8 by omega,
      show i - 8 - 8 - 8 < 8 by omega, show 24 + (i - 8 - 8 - 8) = i by omega]

/-- Buffer byte `b` after a word is written. -/
theorem memReadByte_writeWord (m : Memory) (i b : Nat) (w : Word) :
    memReadByte (writeWord m i w) b = if b / 4 = i then byteOfWord w (b % 4) else memReadByte m b := by
  simp only [writeWord, memReadByte_writeByte]
  by_cases h : b / 4 = i
  · have hb : b = 4 * i ∨ b = 4 * i + 1 ∨ b = 4 * i + 2 ∨ b = 4 * i + 3 := by omega
    rcases hb with rfl | rfl | rfl | rfl
    · simp
    · simp [show (4 * i + 1) / 4 = i by omega, show (4 * i + 1) % 4 = 1 by omega]
    · simp [show (4 * i + 2) / 4 = i by omega, show (4 * i + 2) % 4 = 2 by omega]
    · simp [show (4 * i + 3) / 4 = i by omega, show (4 * i + 3) % 4 = 3 by omega]
  · simp [h, show b ≠ 4 * i + 3 by omega, show b ≠ 4 * i + 2 by omega, show b ≠ 4 * i + 1 by omega,
      show b ≠ 4 * i by omega]

/-- A word written is the word read; every other word is as before (R58). -/
theorem readWord_writeWord (m : Memory) (i j : Nat) (w : Word) :
    readWord (writeWord m i w) j = if j = i then w else readWord m j := by
  simp only [readWord, memReadByte_writeWord]
  rw [show 4 * j / 4 = j by omega, show (4 * j + 1) / 4 = j by omega, show (4 * j + 2) / 4 = j by omega,
    show (4 * j + 3) / 4 = j by omega, show 4 * j % 4 = 0 by omega, show (4 * j + 1) % 4 = 1 by omega,
    show (4 * j + 2) % 4 = 2 by omega, show (4 * j + 3) % 4 = 3 by omega]
  by_cases h : j = i
  · simp [h]
  · simp [h]

theorem readWord_writeWords (f : Nat → Word) (n : Nat) (m : Memory) (j : Nat) :
    readWord (writeWords f n m) j = if j < n then f j else readWord m j := by
  induction n with
  | zero => simp [writeWords]
  | succ n ih =>
    rw [writeWords, readWord_writeWord, ih]
    by_cases h : j = n
    · simp [h]
    · simp [h, show j < n + 1 ↔ j < n by omega]

theorem memReadByte_writeWords (f : Nat → Word) (n : Nat) (m : Memory) (b : Nat) :
    memReadByte (writeWords f n m) b = if b / 4 < n then byteOfWord (f (b / 4)) (b % 4) else memReadByte m b := by
  induction n with
  | zero => simp [writeWords]
  | succ n ih =>
    rw [writeWords, memReadByte_writeWord, ih]
    by_cases h : b / 4 = n
    · simp [h]
    · simp [h, show b / 4 < n + 1 ↔ b / 4 < n by omega]

/-! ## The canonical form -/

theorem wfFrom_mono {lo lo' : Nat} (h : lo' ≤ lo) : {m : Memory} → Memory.wfFrom lo m = true → Memory.wfFrom lo' m = true
  | [], _ => rfl
  | (k, v) :: m, hm => by
    simp only [Memory.wfFrom, Bool.and_eq_true, decide_eq_true_eq] at hm ⊢
    exact ⟨⟨⟨by omega, hm.1.1.2⟩, hm.1.2⟩, hm.2⟩

theorem wfFrom_erase (a : Nat) : {lo : Nat} → {m : Memory} → Memory.wfFrom lo m = true → Memory.wfFrom lo (memErase a m) = true
  | _, [], _ => rfl
  | lo, (k, v) :: m, hm => by
    simp only [Memory.wfFrom, Bool.and_eq_true, decide_eq_true_eq] at hm
    have ih := wfFrom_erase a hm.2
    by_cases hk : k = a
    · simpa [memErase, hk] using wfFrom_mono (show lo ≤ k + 1 by omega) ih
    · simp only [memErase, hk, if_false, Memory.wfFrom, Bool.and_eq_true, decide_eq_true_eq]
      exact ⟨hm.1, ih⟩

theorem wfFrom_insert {a : Nat} {v : Byte} (ha : a < 64) (hv : v ≠ memUnlisted) :
    {lo : Nat} → {m : Memory} → lo ≤ a → (∀ c ∈ m, c.1 ≠ a) → Memory.wfFrom lo m = true →
      Memory.wfFrom lo (memInsert a v m) = true
  | _, [], hlo, _, _ => by simp [memInsert, Memory.wfFrom, hlo, ha, hv]
  | lo, (k, u) :: m, hlo, hk, hm => by
    simp only [Memory.wfFrom, Bool.and_eq_true, decide_eq_true_eq] at hm
    have hka : k ≠ a := hk (k, u) (by simp)
    by_cases hlt : a < k
    · simp only [memInsert, hlt, if_true, Memory.wfFrom, Bool.and_eq_true, decide_eq_true_eq]
      exact ⟨⟨⟨hlo, ha⟩, hv⟩, ⟨⟨by omega, hm.1.1.2⟩, hm.1.2⟩, hm.2⟩
    · simp only [memInsert, hlt, if_false, Memory.wfFrom, Bool.and_eq_true, decide_eq_true_eq]
      exact ⟨hm.1, wfFrom_insert ha hv (by omega) (fun c hc => hk c (by simp [hc])) hm.2⟩

/-- A byte write inside the buffer keeps the canonical form. -/
theorem wf_writeByte {m : Memory} (h : Memory.wf m = true) {a : Nat} (ha : a < 64) (v : Byte) :
    Memory.wf (memWriteByte m a v) = true := by
  unfold memWriteByte
  by_cases hv : v = memUnlisted
  · rw [if_pos hv]; exact wfFrom_erase a h
  · rw [if_neg hv]
    exact wfFrom_insert ha hv (Nat.zero_le a) (memErase_keys a m) (wfFrom_erase a h)

/-- A word write inside the buffer keeps the canonical form. -/
theorem wf_writeWord {m : Memory} (h : Memory.wf m = true) {i : Nat} (hi : i < 16) (w : Word) :
    Memory.wf (writeWord m i w) = true :=
  wf_writeByte (wf_writeByte (wf_writeByte (wf_writeByte h (by omega) _) (by omega) _) (by omega) _) (by omega) _

theorem wf_writeWords {m : Memory} (h : Memory.wf m = true) (f : Nat → Word) :
    {n : Nat} → n ≤ 16 → Memory.wf (writeWords f n m) = true
  | 0, _ => h
  | n + 1, hn => wf_writeWord (wf_writeWords h f (by omega)) (by omega) _

theorem memReadByte_of_wfFrom_lt : {lo : Nat} → {m : Memory} → Memory.wfFrom lo m = true → ∀ {a : Nat}, a < lo →
    memReadByte m a = memUnlisted
  | _, [], _, _, _ => rfl
  | lo, (k, v) :: m, hm, a, ha => by
    simp only [Memory.wfFrom, Bool.and_eq_true, decide_eq_true_eq] at hm
    simpa [memReadByte, show k ≠ a by omega] using memReadByte_of_wfFrom_lt hm.2 (show a < k + 1 by omega)

theorem memReadByte_of_wfFrom_ge : {lo : Nat} → {m : Memory} → Memory.wfFrom lo m = true → ∀ {a : Nat}, 64 ≤ a →
    memReadByte m a = memUnlisted
  | _, [], _, _, _ => rfl
  | lo, (k, v) :: m, hm, a, ha => by
    simp only [Memory.wfFrom, Bool.and_eq_true, decide_eq_true_eq] at hm
    simpa [memReadByte, show k ≠ a by omega] using memReadByte_of_wfFrom_ge hm.2 ha

/-- Buffers in the canonical form with the same bytes are the same data. -/
theorem memory_ext : {lo : Nat} → {m m' : Memory} → Memory.wfFrom lo m = true → Memory.wfFrom lo m' = true →
    (∀ a, memReadByte m a = memReadByte m' a) → m = m'
  | _, [], [], _, _, _ => rfl
  | _, [], (k, v) :: m', _, h', h => by
    simp only [Memory.wfFrom, Bool.and_eq_true, decide_eq_true_eq] at h'
    exact absurd (by simpa [memReadByte] using (h k).symm) h'.1.2
  | _, (k, v) :: m, [], h, _, hr => by
    simp only [Memory.wfFrom, Bool.and_eq_true, decide_eq_true_eq] at h
    exact absurd (by simpa [memReadByte] using hr k) h.1.2
  | lo, (k, v) :: m, (k', v') :: m', h, h', hr => by
    simp only [Memory.wfFrom, Bool.and_eq_true, decide_eq_true_eq] at h h'
    have hkk : k = k' := by
      rcases Nat.lt_trichotomy k k' with hlt | heq | hgt
      · have := hr k
        rw [memReadByte, if_pos rfl, memReadByte, if_neg (by omega),
          memReadByte_of_wfFrom_lt h'.2 (by omega)] at this
        exact absurd this h.1.2
      · exact heq
      · have := hr k'
        rw [memReadByte, if_neg (by omega), memReadByte, if_pos rfl,
          memReadByte_of_wfFrom_lt h.2 (by omega)] at this
        exact absurd this.symm h'.1.2
    subst hkk
    have hv : v = v' := by simpa [memReadByte] using hr k
    subst hv
    have hm : m = m' := by
      refine memory_ext h.2 h'.2 (fun a => ?_)
      by_cases ha : k = a
      · subst ha
        rw [memReadByte_of_wfFrom_lt h.2 (by omega), memReadByte_of_wfFrom_lt h'.2 (by omega)]
      · simpa [memReadByte, ha] using hr a
    rw [hm]

/-- `MemRead` answers at the sixteen word addresses and stops elsewhere (R14). -/
theorem memRead_eq (m : Memory) (addr : Nat) :
    memRead m addr = if addr % 4 = 0 ∧ addr ≤ 60 then .ok (readWord m (addr / 4)) else .error (.noSuchBufferAddress addr) := by
  simp [memRead, bufferAddress]

/-- `MemWrite` answers at the sixteen word addresses and stops elsewhere (R14). -/
theorem memWrite_eq (m : Memory) (addr : Nat) (w : Word) :
    memWrite m addr w =
      if addr % 4 = 0 ∧ addr ≤ 60 then .ok (writeWord m (addr / 4) w) else .error (.noSuchBufferAddress addr) := by
  simp [memWrite, bufferAddress]

end Sys2Proof.Machine
end

