-- ==== Sys2Proof/Laws/State.lean ====
section
/-! SUPPORT. One lemma per field of the state per update, each by unfolding, so that no proof unfolds a record
update. (Written `by rfl`, so that `simp` cites the lemma. A transform of a symbolic state must never be compared by
unfolding, 64 symbolic steps would be compared field by field: use the lemmas of `performTransform`, not `rfl`.) -/

namespace Sys2Proof.Machine

variable (s : State)

/-! ## `setX` -/

@[simp] theorem State.setX_x (x : Quad) : (s.setX x).x = x := by rfl
@[simp] theorem State.setX_mem (x : Quad) : (s.setX x).mem = s.mem := by rfl
@[simp] theorem State.setX_stepCounter (x : Quad) : (s.setX x).stepCounter = s.stepCounter := by rfl
@[simp] theorem State.setX_flight (x : Quad) : (s.setX x).flight = s.flight := by rfl
@[simp] theorem State.setX_err (x : Quad) : (s.setX x).err = s.err := by rfl
@[simp] theorem State.setX_cause (x : Quad) : (s.setX x).cause = s.cause := by rfl
@[simp] theorem State.setX_rsp (x : Quad) : (s.setX x).rsp = s.rsp := by rfl
@[simp] theorem State.setX_port (x : Quad) : (s.setX x).port = s.port := by rfl
@[simp] theorem State.setX_view (x : Quad) : (s.setX x).view = s.view := by rfl

/-! ## `setMem` -/

@[simp] theorem State.setMem_x (m : Memory) : (s.setMem m).x = s.x := by rfl
@[simp] theorem State.setMem_mem (m : Memory) : (s.setMem m).mem = m := by rfl
@[simp] theorem State.setMem_stepCounter (m : Memory) : (s.setMem m).stepCounter = s.stepCounter := by rfl
@[simp] theorem State.setMem_flight (m : Memory) : (s.setMem m).flight = s.flight := by rfl
@[simp] theorem State.setMem_err (m : Memory) : (s.setMem m).err = s.err := by rfl
@[simp] theorem State.setMem_cause (m : Memory) : (s.setMem m).cause = s.cause := by rfl
@[simp] theorem State.setMem_rsp (m : Memory) : (s.setMem m).rsp = s.rsp := by rfl
@[simp] theorem State.setMem_port (m : Memory) : (s.setMem m).port = s.port := by rfl
@[simp] theorem State.setMem_view (m : Memory) : (s.setMem m).view = s.view := by rfl

/-! ## `setStep` -/

@[simp] theorem State.setStep_x (j : BitVec 6) : (s.setStep j).x = s.x := by rfl
@[simp] theorem State.setStep_mem (j : BitVec 6) : (s.setStep j).mem = s.mem := by rfl
@[simp] theorem State.setStep_stepCounter (j : BitVec 6) : (s.setStep j).stepCounter = j := by rfl
@[simp] theorem State.setStep_flight (j : BitVec 6) : (s.setStep j).flight = s.flight := by rfl
@[simp] theorem State.setStep_err (j : BitVec 6) : (s.setStep j).err = s.err := by rfl
@[simp] theorem State.setStep_cause (j : BitVec 6) : (s.setStep j).cause = s.cause := by rfl
@[simp] theorem State.setStep_rsp (j : BitVec 6) : (s.setStep j).rsp = s.rsp := by rfl
@[simp] theorem State.setStep_port (j : BitVec 6) : (s.setStep j).port = s.port := by rfl
@[simp] theorem State.setStep_view (j : BitVec 6) : (s.setStep j).view = s.view := by rfl

/-! ## `recordFault` -/

@[simp] theorem State.recordFault_x (f : CommandFault) : (s.recordFault f).x = s.x := by rfl
@[simp] theorem State.recordFault_mem (f : CommandFault) : (s.recordFault f).mem = s.mem := by rfl
@[simp] theorem State.recordFault_stepCounter (f : CommandFault) : (s.recordFault f).stepCounter = s.stepCounter := by rfl
@[simp] theorem State.recordFault_flight (f : CommandFault) : (s.recordFault f).flight = s.flight := by rfl
@[simp] theorem State.recordFault_err (f : CommandFault) : (s.recordFault f).err = true := by rfl
@[simp] theorem State.recordFault_cause (f : CommandFault) : (s.recordFault f).cause = some f := by rfl
@[simp] theorem State.recordFault_rsp (f : CommandFault) : (s.recordFault f).rsp = s.rsp := by rfl
@[simp] theorem State.recordFault_port (f : CommandFault) : (s.recordFault f).port = s.port := by rfl
@[simp] theorem State.recordFault_view (f : CommandFault) : (s.recordFault f).view = s.view := by rfl

/-! ## `clearFault` -/

@[simp] theorem State.clearFault_x : (s.clearFault).x = s.x := by rfl
@[simp] theorem State.clearFault_mem : (s.clearFault).mem = s.mem := by rfl
@[simp] theorem State.clearFault_stepCounter : (s.clearFault).stepCounter = s.stepCounter := by rfl
@[simp] theorem State.clearFault_flight : (s.clearFault).flight = s.flight := by rfl
@[simp] theorem State.clearFault_err : (s.clearFault).err = false := by rfl
@[simp] theorem State.clearFault_cause : (s.clearFault).cause = none := by rfl
@[simp] theorem State.clearFault_rsp : (s.clearFault).rsp = s.rsp := by rfl
@[simp] theorem State.clearFault_port : (s.clearFault).port = s.port := by rfl
@[simp] theorem State.clearFault_view : (s.clearFault).view = s.view := by rfl

/-! ## `respond` -/

@[simp] theorem State.respond_x (r : Response) : (s.respond r).x = s.x := by rfl
@[simp] theorem State.respond_mem (r : Response) : (s.respond r).mem = s.mem := by rfl
@[simp] theorem State.respond_stepCounter (r : Response) : (s.respond r).stepCounter = s.stepCounter := by rfl
@[simp] theorem State.respond_flight (r : Response) : (s.respond r).flight = none := by rfl
@[simp] theorem State.respond_err (r : Response) : (s.respond r).err = s.err := by rfl
@[simp] theorem State.respond_cause (r : Response) : (s.respond r).cause = s.cause := by rfl
@[simp] theorem State.respond_rsp (r : Response) : (s.respond r).rsp = some r := by rfl
@[simp] theorem State.respond_port (r : Response) : (s.respond r).port = s.port := by rfl
@[simp] theorem State.respond_view (r : Response) : (s.respond r).view = s.view := by rfl

/-! ## `enterFault` -/

@[simp] theorem State.enterFault_x (f : CommandFault) : (s.enterFault f).x = s.x := by rfl
@[simp] theorem State.enterFault_mem (f : CommandFault) : (s.enterFault f).mem = s.mem := by rfl
@[simp] theorem State.enterFault_stepCounter (f : CommandFault) : (s.enterFault f).stepCounter = s.stepCounter := by rfl
@[simp] theorem State.enterFault_flight (f : CommandFault) : (s.enterFault f).flight = none := by rfl
@[simp] theorem State.enterFault_err (f : CommandFault) : (s.enterFault f).err = true := by rfl
@[simp] theorem State.enterFault_cause (f : CommandFault) : (s.enterFault f).cause = some f := by rfl
@[simp] theorem State.enterFault_rsp (f : CommandFault) : (s.enterFault f).rsp = some (.rejected f) := by rfl
@[simp] theorem State.enterFault_port (f : CommandFault) : (s.enterFault f).port = s.port := by rfl
@[simp] theorem State.enterFault_view (f : CommandFault) : (s.enterFault f).view = s.view := by rfl

/-! ## `restore` -/

@[simp] theorem State.restore_x : (s.restore).x = Quad.iv := by rfl
@[simp] theorem State.restore_mem : (s.restore).mem = [] := by rfl
@[simp] theorem State.restore_stepCounter : (s.restore).stepCounter = s.stepCounter := by rfl
@[simp] theorem State.restore_flight : (s.restore).flight = s.flight := by rfl
@[simp] theorem State.restore_err : (s.restore).err = false := by rfl
@[simp] theorem State.restore_cause : (s.restore).cause = none := by rfl
@[simp] theorem State.restore_rsp : (s.restore).rsp = s.rsp := by rfl
@[simp] theorem State.restore_port : (s.restore).port = s.port := by rfl
@[simp] theorem State.restore_view : (s.restore).view = s.view := by rfl

/-! ## `hardReset` -/

@[simp] theorem State.hardReset_x : (s.hardReset).x = Quad.iv := by rfl
@[simp] theorem State.hardReset_mem : (s.hardReset).mem = [] := by rfl
@[simp] theorem State.hardReset_stepCounter : (s.hardReset).stepCounter = 0 := by rfl
@[simp] theorem State.hardReset_flight : (s.hardReset).flight = none := by rfl
@[simp] theorem State.hardReset_err : (s.hardReset).err = false := by rfl
@[simp] theorem State.hardReset_cause : (s.hardReset).cause = none := by rfl
@[simp] theorem State.hardReset_rsp : (s.hardReset).rsp = none := by rfl
@[simp] theorem State.hardReset_port : (s.hardReset).port = s.port := by rfl
@[simp] theorem State.hardReset_view : (s.hardReset).view = s.view := by rfl

/-! ## `performStep` -/

@[simp] theorem State.performStep_x (fn : Word → Word → Word → Word) (j : BitVec 6) : (s.performStep fn j).x = stepQuad fn j s.mem s.x := by rfl
@[simp] theorem State.performStep_mem (fn : Word → Word → Word → Word) (j : BitVec 6) : (s.performStep fn j).mem = s.mem := by rfl
@[simp] theorem State.performStep_stepCounter (fn : Word → Word → Word → Word) (j : BitVec 6) : (s.performStep fn j).stepCounter = j + 1 := by rfl
@[simp] theorem State.performStep_flight (fn : Word → Word → Word → Word) (j : BitVec 6) : (s.performStep fn j).flight = s.flight := by rfl
@[simp] theorem State.performStep_err (fn : Word → Word → Word → Word) (j : BitVec 6) : (s.performStep fn j).err = s.err := by rfl
@[simp] theorem State.performStep_cause (fn : Word → Word → Word → Word) (j : BitVec 6) : (s.performStep fn j).cause = s.cause := by rfl
@[simp] theorem State.performStep_rsp (fn : Word → Word → Word → Word) (j : BitVec 6) : (s.performStep fn j).rsp = s.rsp := by rfl
@[simp] theorem State.performStep_port (fn : Word → Word → Word → Word) (j : BitVec 6) : (s.performStep fn j).port = s.port := by rfl
@[simp] theorem State.performStep_view (fn : Word → Word → Word → Word) (j : BitVec 6) : (s.performStep fn j).view = s.view := by rfl

/-! ## `performTransform` -/

@[simp] theorem State.performTransform_x : (s.performTransform).x = transformQuad s.mem s.x := by
  simp only [State.performTransform, State.setStep_x, State.setX_x]
@[simp] theorem State.performTransform_mem : (s.performTransform).mem = s.mem := by
  simp only [State.performTransform, State.setStep_mem, State.setX_mem]
@[simp] theorem State.performTransform_stepCounter : (s.performTransform).stepCounter = 0 := by
  simp only [State.performTransform, State.setStep_stepCounter]
@[simp] theorem State.performTransform_flight : (s.performTransform).flight = s.flight := by
  simp only [State.performTransform, State.setStep_flight, State.setX_flight]
@[simp] theorem State.performTransform_err : (s.performTransform).err = s.err := by
  simp only [State.performTransform, State.setStep_err, State.setX_err]
@[simp] theorem State.performTransform_cause : (s.performTransform).cause = s.cause := by
  simp only [State.performTransform, State.setStep_cause, State.setX_cause]
@[simp] theorem State.performTransform_rsp : (s.performTransform).rsp = s.rsp := by
  simp only [State.performTransform, State.setStep_rsp, State.setX_rsp]
@[simp] theorem State.performTransform_port : (s.performTransform).port = s.port := by
  simp only [State.performTransform, State.setStep_port, State.setX_port]
@[simp] theorem State.performTransform_view : (s.performTransform).view = s.view := by
  simp only [State.performTransform, State.setStep_view, State.setX_view]

/-! ## `passEdge` -/

@[simp] theorem State.passEdge_x (p : List Drive) : (s.passEdge p).x = s.x := by rfl
@[simp] theorem State.passEdge_mem (p : List Drive) : (s.passEdge p).mem = s.mem := by rfl
@[simp] theorem State.passEdge_stepCounter (p : List Drive) : (s.passEdge p).stepCounter = s.stepCounter := by rfl
@[simp] theorem State.passEdge_flight (p : List Drive) : (s.passEdge p).flight = s.flight := by rfl
@[simp] theorem State.passEdge_err (p : List Drive) : (s.passEdge p).err = s.err := by rfl
@[simp] theorem State.passEdge_cause (p : List Drive) : (s.passEdge p).cause = s.cause := by rfl
@[simp] theorem State.passEdge_rsp (p : List Drive) : (s.passEdge p).rsp = none := by rfl
@[simp] theorem State.passEdge_port (p : List Drive) : (s.passEdge p).port = p := by rfl
@[simp] theorem State.passEdge_view (p : List Drive) : (s.passEdge p).view = s.view := by rfl

/-! ## `beginSteps` -/

@[simp] theorem State.beginSteps_x (f : Flight) : (s.beginSteps f).x = s.x := by rfl
@[simp] theorem State.beginSteps_mem (f : Flight) : (s.beginSteps f).mem = s.mem := by rfl
@[simp] theorem State.beginSteps_stepCounter (f : Flight) : (s.beginSteps f).stepCounter = 0 := by rfl
@[simp] theorem State.beginSteps_flight (f : Flight) : (s.beginSteps f).flight = some f := by rfl
@[simp] theorem State.beginSteps_err (f : Flight) : (s.beginSteps f).err = s.err := by rfl
@[simp] theorem State.beginSteps_cause (f : Flight) : (s.beginSteps f).cause = s.cause := by rfl
@[simp] theorem State.beginSteps_rsp (f : Flight) : (s.beginSteps f).rsp = s.rsp := by rfl
@[simp] theorem State.beginSteps_port (f : Flight) : (s.beginSteps f).port = s.port := by rfl
@[simp] theorem State.beginSteps_view (f : Flight) : (s.beginSteps f).view = s.view := by rfl

end Sys2Proof.Machine
end

