-- ==== Sys2Proof/Laws/Ops.lean ====
section
/-! SUPPORT. What each shared operation does, once: bytes on a bus, the step index, the writes of ENCODE, the
steps of a transform, one rising edge. -/

namespace Sys2Proof.Machine

open Sys2Proof

/-! ## Bytes on a bus -/

/-- Byte `k` of a packed bus is byte `k` of the list (R84, R86, R87). -/
theorem packBytes_byte (w : Nat) : (bs : List Byte) → (k : Nat) → 8 * k + 8 ≤ w →
    (packBytes w bs).extractLsb' (8 * k) 8 = bs.getD k 0
  | [], k, _ => by simp [packBytes]
  | b :: bs, 0, h => by
    apply BitVec.eq_of_getLsbD_eq
    intro i hi
    have h1 : i < w := by omega
    simp [packBytes, hi, h1]
  | b :: bs, k + 1, h => by
    have ih := packBytes_byte w bs k (by omega)
    rw [List.getD_cons_succ, ← ih]
    apply BitVec.eq_of_getLsbD_eq
    intro i hi
    have h1 : 8 * (k + 1) + i < w := by omega
    have h2 : ¬ 8 * (k + 1) + i < 8 := by omega
    have h3 : 8 * (k + 1) + i - 8 = 8 * k + i := by omega
    have h4 : b.getLsbD (8 * (k + 1) + i) = false := BitVec.getLsbD_of_ge _ _ (by omega)
    simp only [packBytes, BitVec.getLsbD_extractLsb', BitVec.getLsbD_or, BitVec.getLsbD_shiftLeft, BitVec.getLsbD_setWidth,
      hi, h1, h2, h3, h4, decide_true, decide_false, Bool.true_and, Bool.not_false, Bool.and_false, Bool.or_false]

/-! ## The command word -/

@[simp] theorem cmdOpField_append (len : BitVec 6) (op : BitVec 3) : cmdOpField (len ++ op) = op := by
  revert len op; decide

@[simp] theorem cmdLenField_append (len : BitVec 6) (op : BitVec 3) : cmdLenField (len ++ op) = len := by
  revert len op; decide

/-- A message with no byte at or above `len` is kept whole. -/
theorem keepBytes_of_lt {len : BitVec 6} {msg : BitVec 440} (h : msg.toNat < 2 ^ (8 * len.toNat)) :
    keepBytes len msg = msg := by
  rw [keepBytes, Nat.mod_eq_of_lt h, BitVec.ofNat_toNat, BitVec.setWidth_eq]

/-- What a command word can be: no word is a step or the pin (R95). -/
theorem decodeCmd_cases (word : BitVec 9) (msg : BitVec 440) :
    decodeCmd word msg = .reset ∨ decodeCmd word msg = .transform ∨ decodeCmd word msg = .finalize ∨
    decodeCmd word msg = .reserved5 ∨ decodeCmd word msg = .reserved6 ∨ decodeCmd word msg = .reserved7 ∨
    (∃ l m, decodeCmd word msg = .encode l m) ∨ (∃ l m, decodeCmd word msg = .digest l m) := by
  unfold decodeCmd; split <;> simp

/-! ## The step index -/

@[simp] theorem stepIndex_quarter (q : BitVec 2) (i : BitVec 4) : quarter (stepIndex q i) = q := by
  revert q i; decide

@[simp] theorem stepIndex_position (q : BitVec 2) (i : BitVec 4) : (stepIndex q i).extractLsb' 0 4 = i := by
  revert q i; decide

/-- A step index is its quarter and its position. -/
theorem stepIndex_of_fields (j : BitVec 6) : stepIndex (quarter j) (j.extractLsb' 0 4) = j := by
  revert j; decide

/-! ## The writes of ENCODE -/

theorem tooLong_of_le {len : BitVec 6} (h : len.toNat ≤ 55) : tooLong len = false :=
  decide_eq_false (show ¬ 55 < len.toNat by omega)

theorem tooLong_of_lt {len : BitVec 6} (h : 55 < len.toNat) : tooLong len = true :=
  decide_eq_true (show 55 < len.toNat by omega)

/-- Byte `k` of word `i` of the padded message is its byte `4 * i + k` (R120, R53). -/
theorem byteOfWord_packedWord (len : BitVec 6) (msg : BitVec 440) (i k : Nat) (h : k < 4) :
    byteOfWord (packedWord len msg i) k = padByte len msg (4 * i + k) := by
  rw [packedWord, byteOfWord_wordOfBytes _ _ _ _ _ h]
  split_ifs <;> congr 1 <;> omega

theorem encodedWords_le (len : BitVec 6) (h : tooLong len = false) : encodedWords len ≤ 14 := by
  have h : ¬ 55 < len.toNat := of_decide_eq_false h
  have : (len.toNat + 4) / 4 ≤ 14 := by omega
  exact this

/-- The words of the buffer after ENCODE's writes (R120, R122). -/
theorem readWord_encodeBuffer (len : BitVec 6) (msg : BitVec 440) (m : Memory) (i : Nat) :
    readWord (encodeBuffer len msg m) i =
      if i = 15 then (bitLength len).extractLsb' 32 32
      else if i = 14 then (bitLength len).extractLsb' 0 32
      else if i < encodedWords len then packedWord len msg i
      else readWord m i := by
  simp only [encodeBuffer, readWord_writeWord, readWord_writeWords]

/-- The bytes of the buffer after ENCODE's writes. -/
theorem memReadByte_encodeBuffer (len : BitVec 6) (msg : BitVec 440) (m : Memory) (a : Nat) :
    memReadByte (encodeBuffer len msg m) a =
      if a / 4 = 15 then byteOfWord ((bitLength len).extractLsb' 32 32) (a % 4)
      else if a / 4 = 14 then byteOfWord ((bitLength len).extractLsb' 0 32) (a % 4)
      else if a / 4 < encodedWords len then byteOfWord (packedWord len msg (a / 4)) (a % 4)
      else memReadByte m a := by
  simp only [encodeBuffer, memReadByte_writeWord, memReadByte_writeWords]

/-- ENCODE's writes keep the canonical form. -/
theorem wf_encodeBuffer {m : Memory} (h : Memory.wf m = true) (len : BitVec 6) (msg : BitVec 440) :
    Memory.wf (encodeBuffer len msg m) = true := by
  refine wf_writeWord (wf_writeWord (wf_writeWords h _ ?_) (by omega) _) (by omega) _
  have := len.isLt
  simp only [encodedWords]
  omega

/-! ## Steps -/

/-- Step `n` follows the steps before it (R161). -/
theorem runSteps_succ (m : Memory) (x : Quad) (n : Nat) :
    runSteps m x (n + 1) =
      stepQuad (roundFn (quarter (BitVec.ofNat 6 n))) (BitVec.ofNat 6 n) m (runSteps m x n) := rfl

/-- A transform is its 64 steps, of which step `n = 63` is the last. Stated over `n`, so that the kernel never
unrolls the steps. -/
theorem transformQuad_eq_succ (m : Memory) (x : Quad) (n : Nat) (h : n = 63) :
    transformQuad m x = runSteps m x (n + 1) := by
  have : n + 1 = Config.nStep := by rw [h]; rfl
  rw [this, transformQuad]

/-- One step, once its registers `x` and its next index are known. -/
theorem performStep_eq {s : State} {fn : Word → Word → Word → Word} {j : BitVec 6} {x : Quad}
    (h : stepQuad fn j s.mem s.x = x) :
    s.performStep fn j = { s with x := x, stepCounter := j + 1 } := by
  rw [State.performStep, h]; rfl

/-- What the sequencer does with the step index it fetches: the step whose function is its quarter's. -/
theorem exec_decodeStep (j : BitVec 6) (s : State) :
    exec (decodeStep j) s = .next (s.performStep (roundFn (quarter j)) j) := by
  obtain ⟨q, i, rfl⟩ : ∃ q i, j = stepIndex q i := ⟨_, _, (stepIndex_of_fields j).symm⟩
  have hq : q = 0#2 ∨ q = 1#2 ∨ q = 2#2 ∨ q = 3#2 := by revert q; decide
  have hi := stepIndex_position q i
  have hd : (stepIndex q i).extractLsb' 4 2 = q := stepIndex_quarter q i
  rcases hq with rfl | rfl | rfl | rfl <;> rw [decodeStep, hi, hd, stepIndex_quarter] <;> rfl

/-! ## One rising edge -/

theorem clockEdge_rst {s : State} {rest : List Drive} (h : s.port = .rst :: rest) :
    clockEdge s = exec .hwreset (s.passEdge rest) := by
  simp [clockEdge, h]

theorem clockEdge_busy {s : State} {f : Flight} (hf : s.flight = some f) (h : ∀ rest, s.port ≠ .rst :: rest) :
    clockEdge s = busyEdge f (s.passEdge (holdCommand s.port)) := by
  unfold clockEdge
  split
  · exact absurd ‹_› (h _)
  · rename_i f' hf' _
    rw [hf] at hf'
    cases hf'
    rfl
  all_goals simp_all

theorem clockEdge_command {s : State} {word : BitVec 9} {msg : BitVec 440} {rest : List Drive}
    (hf : s.flight = none) (h : s.port = .cmd word msg :: rest) :
    clockEdge s = runCommand (decodeCmd word msg) (s.passEdge rest) := by
  simp [clockEdge, h, hf]

theorem clockEdge_idle {s : State} {rest : List Drive} (hf : s.flight = none) (h : s.port = .idle :: rest) :
    clockEdge s = .next (s.passEdge rest) := by
  simp [clockEdge, h, hf]

theorem clockEdge_nothing {s : State} (hf : s.flight = none) (h : s.port = []) :
    clockEdge s = .next (s.passEdge []) := by
  simp [clockEdge, h, hf]

end Sys2Proof.Machine
end

