-- ==== Sys2Proof/Laws/PerInstr.lean ====
section
/-! SUPPORT. Per instruction: the encoder agrees with the row of spec/opcode_table.json, under its mask. -/

namespace Sys2Proof.Laws.TableRow

open Sys2Proof

/-- The row of an instruction in the opcode table: its format, its mask and its match. -/
def row : Instr → Format × Nat × Nat
  | .reset => (.cmd, 0x007, 0x000)
  | .encode _ _ => (.cmd, 0x007, 0x001)
  | .transform => (.cmd, 0x007, 0x002)
  | .finalize => (.cmd, 0x007, 0x003)
  | .digest _ _ => (.cmd, 0x007, 0x004)
  | .reserved5 => (.cmd, 0x007, 0x005)
  | .reserved6 => (.cmd, 0x007, 0x006)
  | .reserved7 => (.cmd, 0x007, 0x007)
  | .stepF _ => (.step, 0x30, 0x00)
  | .stepG _ => (.step, 0x30, 0x10)
  | .stepH _ => (.step, 0x30, 0x20)
  | .stepI _ => (.step, 0x30, 0x30)
  | .hwreset => (.pin, 0x1, 0x1)

/-- The bits of the word alone: the CMD word, the step index or the pin. -/
def wordBits : Encoded → Nat
  | .cmd word _ => word.toNat
  | .step j => j.toNat
  | .pin rst => rst.toNat

/-- The encoded word has the row's format and, under the row's mask, the row's match. -/
def Statement (i : Instr) : Prop :=
  encodedFormat (encode i) = (row i).1 ∧ wordBits (encode i) &&& (row i).2.1 = (row i).2.2

theorem reset : Statement .reset := ⟨rfl, by decide⟩

theorem encode (len : BitVec 6) (msg : BitVec 440) : Statement (.encode len msg) := by
  refine ⟨rfl, ?_⟩
  show (cmdWord len 0b001#3).toNat &&& 0x007 = 0x001
  revert len; decide

theorem transform : Statement .transform := ⟨rfl, by decide⟩

theorem finalize : Statement .finalize := ⟨rfl, by decide⟩

theorem digest (len : BitVec 6) (msg : BitVec 440) : Statement (.digest len msg) := by
  refine ⟨rfl, ?_⟩
  show (cmdWord len 0b100#3).toNat &&& 0x007 = 0x004
  revert len; decide

theorem reserved5 : Statement .reserved5 := ⟨rfl, by decide⟩

theorem reserved6 : Statement .reserved6 := ⟨rfl, by decide⟩

theorem reserved7 : Statement .reserved7 := ⟨rfl, by decide⟩

theorem stepF (i : BitVec 4) : Statement (.stepF i) := by
  refine ⟨rfl, ?_⟩
  show (stepIndex 0b00#2 i).toNat &&& 0x30 = 0x00
  revert i; decide

theorem stepG (i : BitVec 4) : Statement (.stepG i) := by
  refine ⟨rfl, ?_⟩
  show (stepIndex 0b01#2 i).toNat &&& 0x30 = 0x10
  revert i; decide

theorem stepH (i : BitVec 4) : Statement (.stepH i) := by
  refine ⟨rfl, ?_⟩
  show (stepIndex 0b10#2 i).toNat &&& 0x30 = 0x20
  revert i; decide

theorem stepI (i : BitVec 4) : Statement (.stepI i) := by
  refine ⟨rfl, ?_⟩
  show (stepIndex 0b11#2 i).toNat &&& 0x30 = 0x30
  revert i; decide

theorem hwreset : Statement .hwreset := ⟨rfl, by decide⟩

end Sys2Proof.Laws.TableRow
end

