-- ==== Sys2Proof/Tests/Slice0.lean ====
section
/-! SUPPORT. The model's own tests. Expected values are those of spec/ (the vectors V<n> of 95_test_vectors.md, the
tables of the rules) or are written out from its encodings by hand; none is the model's own answer. At the end,
for every obligation with hypotheses, a state and operands that meet them. -/

namespace Sys2Proof.Tests

open Sys2Proof Sys2Proof.Machine

/-- The state that an instruction leaves; a stop would show as the reset state. -/
def after (o : Host.Outcome State Fault Refusal) : State :=
  match o with
  | .next t => t
  | .fault _ => State.reset
  | .refused _ => State.reset

/-- An idle engine with given registers and buffer words. -/
def engine (x : Quad) (w : Nat → Word) : State := { State.reset with x := x, mem := writeWords w 16 [] }

/-- The buffer of the arbitrary-state rows of V17: `M[i] = ((i + 1) × 01010101) OR 80000000`. -/
def v17Buffer (i : Nat) : Word := (BitVec.ofNat 32 (i + 1) * 0x01010101#32) ||| 0x80000000#32

/-- The registers of those rows. -/
def v17Registers : Quad := ⟨0xFFFFFFFF#32, 0x80000000#32, 0x7FFFFFFF#32, 0x00000001#32⟩

/-- The buffer of the empty message (V10). -/
def emptyBlock (i : Nat) : Word := if i = 0 then 0x00000080#32 else 0

/-- A fresh engine after `ENCODE "abcdefgh"` (V34). -/
def afterAbcdefgh : State := after (exec (.encode 8 0x6867666564636261) State.reset)

/-! ## The decoder: words written out from R83, R88, R110 -/

theorem test_decode_reset : decodeTableWord 16 0b000000000 = some .reset := by decide
theorem test_decode_reset_ignores_len : decodeTableWord 9 0b101101000 = some .reset := by decide
theorem test_decode_encode_abc : decode (.cmd 0b000011001#9 0xFF636261) = .ok (.encode 3 0x636261) := by decide
theorem test_decode_transform : decodeTableWord 16 0b000000010 = some .transform := by decide
theorem test_decode_finalize : decodeTableWord 16 0b000000011 = some .finalize := by decide
theorem test_decode_digest_len55 : decodeTableWord 16 0b110111100 = some (.digest 55 0) := by decide
theorem test_decode_reserved5 : decodeTableWord 16 0b111111101 = some .reserved5 := by decide
theorem test_decode_reserved6 : decodeTableWord 16 0b000000110 = some .reserved6 := by decide
theorem test_decode_reserved7 : decodeTableWord 16 0b111111111 = some .reserved7 := by decide
theorem test_decode_stepF : decodeTableWord 8 0b001111 = some (.stepF 15) := by decide
theorem test_decode_stepF_one : decodeTableWord 6 0b000001 = some (.stepF 1) := by decide
theorem test_decode_stepG : decodeTableWord 8 0b010011 = some (.stepG 3) := by decide
theorem test_decode_stepH : decodeTableWord 8 0b100000 = some (.stepH 0) := by decide
theorem test_decode_stepI : decodeTableWord 8 0b111110 = some (.stepI 14) := by decide
theorem test_decode_hwreset : decodeTableWord 8 0b1 = some .hwreset := by decide
theorem test_decode_pin_low : decodeBits .pin 0 = .error .pinLow := by decide
theorem test_decode_no_such_bit :
    decodeBits .cmd 0x200 = .error .noSuchBit ∧ decodeBits .step 0x40 = .error .noSuchBit ∧
      decodeBits .pin 2 = .error .noSuchBit := by decide
theorem test_encode_line_abc : (encodeLine [0x61, 0x62, 0x63]).map encode = some (.cmd 0x019#9 0x636261) := by
  decide
theorem test_digest_line_a : (digestLine [0x61]).map encode = some (.cmd 0x00C#9 0x61) := by decide
theorem test_line_of_64_bytes :
    encodeLine (List.replicate 64 0x61) = none ∧ digestLine (List.replicate 64 0x61) = none := by decide
theorem test_line_of_63_bytes :
    (lineOperands (List.replicate 63 0)).map Prod.fst = some 63#6 := by decide

/-! ## Ill-formed terms, one for each check of `Instr.wf` -/

theorem test_wf_encode_refuses_byte_at_len : ¬ (Instr.encode 0 1).WellFormed := by decide
theorem test_wf_digest_refuses_byte_at_len : ¬ (Instr.digest 1 0x100).WellFormed := by decide
theorem test_wf_encode_accepts : (Instr.encode 3 0x636261).WellFormed := by decide

/-! ## Datapath and tables (V12, V13, V16) -/

theorem test_round_functions :
    roundF 0x89ABCDEF 0xFEDCBA98 0x76543210 = 0xFEDCBA98#32 ∧ roundG 0x89ABCDEF 0xFEDCBA98 0x76543210 = 0x88888888#32 ∧
      roundH 0x89ABCDEF 0xFEDCBA98 0x76543210 = 0x01234567#32 ∧ roundI 0x89ABCDEF 0xFEDCBA98 0x76543210 = 0x77777777#32 := by
  decide
theorem test_round_i_of_zeros : roundI 0 0 0 = 0xFFFFFFFF#32 := by decide
theorem test_rotl_wraps : rotl32 0x80000001#32 4 = 0x00000018#32 ∧ rotl32 0x12345678#32 23 = 0x3C091A2B#32 := by decide
theorem test_table_K_sums :
    romK.length = 64 ∧ romK.foldl (· + ·) 0 = 0x27F3A0BC#32 ∧ romK.foldl (· ^^^ ·) 0 = 0x10E6CC5A#32 := by decide +kernel
theorem test_table_S_sum :
    ((List.range 64).map (fun j => (rotAmount (BitVec.ofNat 6 j)).toNat)).sum = 848 := by decide +kernel
theorem test_step_row_63 : midx 63#6 = 9#4 ∧ rotAmount 63#6 = 21#5 ∧ constK 63#6 = 0xEB86D391#32 := by decide +kernel
theorem test_step_row_18 : midx 18#6 = 11#4 ∧ rotAmount 18#6 = 14#5 ∧ constK 18#6 = 0x265E5A51#32 := by decide +kernel

/-! ## RESET, HWRESET -/

theorem test_reset_clears_fault :
    (after (exec .reset { State.reset with err := true, cause := some .illegalCommand, mem := [(3, 1#8)] })).status = 0x000#10 := by
  decide
theorem test_reset_writes_iv :
    (after (exec .reset { State.reset with x := v17Registers })).x = ⟨0x67452301#32, 0xEFCDAB89#32, 0x98BADCFE#32, 0x10325476#32⟩ := by decide
theorem test_hwreset_cuts_a_transform :
    step { State.reset with x := v17Registers, stepCounter := 17, flight := some .digest, port := [.rst] } =
      .next State.reset := rfl

/-! ## ENCODE (V15, V34, V35) -/

theorem test_encode_abc :
    (after (exec (.encode 3 0x636261) State.reset)).word 0 = 0x80636261#32 ∧
      (after (exec (.encode 3 0x636261) State.reset)).word 14 = 0x00000018#32 := by decide +kernel
theorem test_encode_stale_words :
    (after (exec (.encode 1 0x61) afterAbcdefgh)).word 0 = 0x00008061#32 ∧
      (after (exec (.encode 1 0x61) afterAbcdefgh)).word 1 = 0x68676665#32 ∧
      (after (exec (.encode 1 0x61) afterAbcdefgh)).word 2 = 0x00000080#32 := by decide +kernel
theorem test_encode_len55 :
    (after (exec (.encode 55 0x61616161616161616161616161616161616161616161616161616161616161616161616161616161616161616161616161616161616161) State.reset)).word 13 = 0x80616161#32 := by
  decide +kernel
theorem test_encode_len56_faults :
    (after (exec (.encode 56 0) State.reset)).status = 0x006#10 ∧
      (after (exec (.encode 56 0) State.reset)).mem = [] := by decide +kernel

/-! ## Steps and TRANSFORM (V17, V10, V21) -/

theorem test_stepF_arbitrary :
    (after (exec (.stepF 5) (engine v17Registers v17Buffer))).x = ⟨0x00000001#32, 0x5CC30CD8#32, 0x80000000#32, 0x7FFFFFFF#32⟩ := by
  decide +kernel
theorem test_stepG_arbitrary :
    (after (exec (.stepG 5) (engine v17Registers v17Buffer))).x = ⟨0x00000001#32, 0x1E3EB61A#32, 0x80000000#32, 0x7FFFFFFF#32⟩ := by
  decide +kernel
theorem test_stepH_arbitrary :
    (after (exec (.stepH 8) (engine v17Registers v17Buffer))).x = ⟨0x00000001#32, 0xEA98CD1B#32, 0x80000000#32, 0x7FFFFFFF#32⟩ := by
  decide +kernel
theorem test_stepI_arbitrary :
    (after (exec (.stepI 11) (engine v17Registers v17Buffer))).x = ⟨0x00000001#32, 0x75EB82C3#32, 0x80000000#32, 0x7FFFFFFF#32⟩ := by
  decide +kernel
theorem test_stepF_of_the_empty_message :
    (after (exec (.stepF 0) (engine ⟨0x67452301#32, 0xEFCDAB89#32, 0x98BADCFE#32, 0x10325476#32⟩ emptyBlock))).x =
      ⟨0x10325476#32, 0xA5202774#32, 0xEFCDAB89#32, 0x98BADCFE#32⟩ := by decide +kernel
theorem test_stepG_of_the_empty_message :
    (after (exec (.stepG 0) (engine ⟨0xF56C7CF1#32, 0xD6819C6A#32, 0x5AA53F75#32, 0x374943A7#32⟩ emptyBlock))).x =
      ⟨0x374943A7#32, 0x1C7D7513#32, 0xD6819C6A#32, 0x5AA53F75#32⟩ := by decide +kernel
theorem test_stepH_of_the_empty_message :
    (after (exec (.stepH 0) (engine ⟨0x13707036#32, 0xA2205F1F#32, 0x1C31C384#32, 0xAE7813DB#32⟩ emptyBlock))).x =
      ⟨0xAE7813DB#32, 0xDF63EAA1#32, 0xA2205F1F#32, 0x1C31C384#32⟩ := by decide +kernel
theorem test_stepI_of_the_empty_message :
    (after (exec (.stepI 15) (engine ⟨0x30130182#32, 0xFF4EA3EB#32, 0x6E10A476#32, 0x7246FAD3#32⟩ emptyBlock))).x =
      ⟨0x7246FAD3#32, 0x14E45506#32, 0xFF4EA3EB#32, 0x6E10A476#32⟩ := by decide +kernel
theorem test_stepI_wraps_the_counter :
    (after (exec (.stepI 15) { State.reset with stepCounter := 63 })).stepCounter = 0 := by decide +kernel
theorem test_transform_of_the_zero_block :
    (after (exec .transform State.reset)).x = ⟨0x9BD9FAAB#32, 0x7ED7E347#32, 0x86F08AB9#32, 0x63FF231B#32⟩ := by decide +kernel
theorem test_transform_of_the_empty_message :
    (after (exec .transform (engine Quad.iv emptyBlock))).x = ⟨0x7246FAD3#32, 0x14E45506#32, 0xFF4EA3EB#32, 0x6E10A476#32⟩ := by
  decide +kernel

/-! ## FINALIZE and DIGEST (V20, V2, V3, V33) -/

theorem test_finalize_fresh :
    (after (exec .finalize State.reset)).rspHex =
      some 0x3032343638414345313335373942434646444239373532314543413836343230#256 := by
  decide +kernel
theorem test_finalize_zero_sums :
    (after (exec .finalize (engine ⟨0x98BADCFF#32, 0x10325477#32, 0x67452302#32, 0xEFCDAB8A#32⟩ (fun _ => 0)))).rspHex =
      some 0x3030303030303030303030303030303030303030303030303030303030303030#256 := by
  decide +kernel
theorem test_digest_empty :
    (after (exec (.digest 0 0) State.reset)).rspHex =
        some 0x4537323438464345383939303038394534303242303046383944433844313444#256 ∧
      (after (exec (.digest 0 0) State.reset)).rspDigest = some 0x7E42F8EC980980E904B2008FD98C1DD4#128 := by
  decide +kernel
theorem test_digest_stale :
    (after (exec (.digest 1 0x61) (after (exec (.digest 12 0x35444D20756F79206B637546) State.reset)))).rspHex =
      some 0x4546384431393437343730454633343533333931423745354231353839424146#256 := by
  decide +kernel

/-! ## Reserved opcodes (V36) -/

theorem test_reserved5 : (after (exec .reserved5 State.reset)).status = 0x00A#10 := by decide
theorem test_reserved6_last_fault_wins :
    (after (exec .reserved6 (after (exec (.encode 56 0) State.reset)))).status = 0x00A#10 := by decide
theorem test_reserved7_status : (after (exec .reserved7 State.reset)).rspStatus = some 2#2 := by decide

/-! ## The step of the machine -/

theorem test_step_runs_the_placed_step :
    (after (step (State.reset.withFetchWord 8 0x10))).stepCounter = 17 := by decide +kernel
theorem test_step_runs_the_placed_command :
    (after (step (State.reset.withFetchWord 16 0x005))).status = 0x00A#10 := by decide +kernel
theorem test_busy_status :
    (after (step { State.reset with view := .sequencer, port := [.cmd 0x002 0] })).status = 0x001#10 := by decide

/-! ## Every obligation with hypotheses: they can be met together, at the boundaries of each clause -/

theorem witness_HwresetHasPriorityOverEverything :
    ({ State.reset with flight := some .transform, stepCounter := 40, port := [.rst] } : State).port = .rst :: [] := by decide
theorem witness_ResetTwiceIsResetOnce : ({ State.reset with err := true, mem := [(5, 7#8)] } : State).Idle := by decide
theorem witness_NothingSurvivesAReset :
    State.reset.Idle ∧ ({ State.reset with x := v17Registers } : State).Idle ∧
      exec .reset State.reset = .next { State.reset with rsp := some .ok } ∧
      exec .reset { State.reset with x := v17Registers } = .next { State.reset with rsp := some .ok } :=
  ⟨by decide, by decide, rfl, rfl⟩
theorem witness_EncodeWritesThePaddedMessage :
    (0xFF#440).toNat < 2 ^ (8 * (1#6).toNat) ∧ (55#6).toNat ≤ 55 ∧ 55 < (56#6).toNat ∧ (0#6).toNat ≤ 55 ∧
      3 < ((55#6).toNat + 4) / 4 ∧ ((52#6).toNat + 4) / 4 ≤ 63 / 4 ∧ ((51#6).toNat + 4) / 4 ≤ 55 / 4 ∧ 55 / 4 ≠ 14 ∧ 55 / 4 ≠ 15 := by
  decide
theorem witness_EncodeTooLongWritesNothing : 55 < (56#6).toNat ∧ 55 < (63#6).toNat := by decide
theorem witness_MessageIsPackedLittleEndian : (55#6).toNat ≤ 55 ∧ 54 < (55#6).toNat ∧ (0#6).toNat ≤ 55 := by decide
theorem witness_EncodeOnAZeroBufferMakesTheBlock :
    (55#6).toNat ≤ 55 ∧ ∀ i < 16, State.reset.word i = 0 := by decide
theorem witness_StaleWordsSurviveAShorterEncode :
    (55#6).toNat ≤ 55 ∧ (0#6).toNat ≤ 55 ∧ ((0#6).toNat + 4) / 4 ≤ 1 ∧ 1 < ((4#6).toNat + 4) / 4 := by decide
theorem witness_LongerEncodeHidesTheEarlierOne :
    (3#6).toNat ≤ 55 ∧ (55#6).toNat ≤ 55 ∧ ((3#6).toNat + 4) / 4 ≤ ((0#6).toNat + 4) / 4 := by decide
theorem witness_MessageBytesFromLenOnAreIgnored :
    ∀ a < (1#6).toNat, (0xFF61#440).extractLsb' (8 * a) 8 = (0x61#440).extractLsb' (8 * a) 8 := by decide
theorem witness_StepsDoTheirRound : 0 < 4 ∧ 3 < 4 := by decide
theorem witness_RotationMovesEveryBit : 0 < 1 ∧ 1 < 32 ∧ 0 < 31 ∧ 31 < 32 := by decide
theorem witness_TransformIsInjective :
    stepQuad (roundFn (quarter 0#6)) 0#6 [] Quad.iv = stepQuad (roundFn (quarter 0#6)) 0#6 [] Quad.iv ∧
      transformQuad [] Quad.iv = transformQuad [] Quad.iv := ⟨rfl, rfl⟩
theorem witness_DigestStringIsUpperCaseHex : (0#6).toNat ≤ 55 ∧ (55#6).toNat ≤ 55 := by decide
theorem witness_DigestIsEncodeTransformFinalize :
    (0xFF#440).toNat < 2 ^ (8 * (1#6).toNat) ∧ (55#6).toNat ≤ 55 ∧ 55 < (56#6).toNat := by decide
theorem witness_DigestTooLongFaultsAsAWhole : 55 < (56#6).toNat ∧ 55 < (63#6).toNat := by decide
theorem witness_DigestChainsFromTheHeldRegisters : (55#6).toNat ≤ 55 ∧ (0#6).toNat ≤ 55 := by decide
theorem witness_DigestOnAFreshEngineIsTheMessageDigest : (55#6).toNat ≤ 55 ∧ State.reset.Fresh := by decide
theorem witness_ReservedOpcodesRaiseIllegalCommand : 5 ≤ (5#3).toNat ∧ 5 ≤ (6#3).toNat ∧ 5 ≤ (7#3).toNat := by decide
theorem witness_FaultsArePrecise :
    State.reset.rsp = none ∧
      exec .reserved5 State.reset = .next (State.reset.enterFault .illegalCommand) ∧
      (State.reset.enterFault .illegalCommand).rsp = some (.rejected .illegalCommand) := ⟨rfl, rfl, rfl⟩
theorem witness_OnlyTheTwoFaultsExist : State.reset.rsp = none := by decide
theorem witness_OnlyResetsClearTheFaultRecord :
    Instr.finalize ≠ .reset ∧ Instr.finalize ≠ .hwreset ∧
      exec .finalize (State.reset.recordFault .msgTooLong) =
        .next ((State.reset.recordFault .msgTooLong).respond (digestResponse Quad.iv)) ∧
      (State.reset.recordFault .msgTooLong).err = true ∧ (State.reset.recordFault .msgTooLong).cause ≠ none :=
  ⟨by decide, by decide, rfl, rfl, by decide⟩
theorem witness_OnlyTheNamedInstructionsWrite :
    exec .finalize State.reset = .next (State.reset.respond (digestResponse Quad.iv)) := rfl
theorem witness_BufferReadsWhatWasWritten :
    (0 % 4 = 0 ∧ 0 ≤ 60) ∧ (60 % 4 = 0 ∧ 60 ≤ 60) ∧ ¬ (61 % 4 = 0 ∧ 61 ≤ 60) ∧ ¬ (64 % 4 = 0 ∧ 64 ≤ 60) := by decide
theorem witness_DecodeOfEncodeIsTheInstruction : (Instr.encode 1 0xFF).WellFormed ∧ (Instr.stepI 15).WellFormed := by decide
theorem witness_EveryWordDecodes : ((1#3) = 1#3 ∨ (1#3) = 4#3) ∧ 62 < (63#6).toNat := by decide
theorem witness_UnusedFieldsAreIgnored : (5#3) ≠ 1#3 ∧ (5#3) ≠ 4#3 ∧ 56 ≤ (56#6).toNat ∧ 56 ≤ (63#6).toNat := by decide
theorem witness_StepRunsTheDecodedInstruction :
    ({ State.reset with port := [.rst] } : State).port = .rst :: [] ∧
      (State.reset.flight = none ∧ State.reset.view = .command ∧
        ({ State.reset with port := [.cmd 0x003 0] } : State).port = .cmd 0x003 0 :: [] ∧
        decode (.cmd 0x003 0) = .ok .finalize) ∧
      (∀ j : BitVec 6, (j = 0#6 ∨ j = 63#6) →
        ({ State.reset with flight := some .digest, stepCounter := j } : State).stepping = true ∧
        ({ State.reset with flight := some .digest, stepCounter := j } : State).rst = false ∧
        ∃ i, decode (.step j) = .ok i) :=
  ⟨by decide, by decide, fun _ _ => ⟨rfl, rfl, _, rfl⟩⟩
theorem witness_SequencerWalksThroughStep :
    ∀ j : BitVec 6, (j = 0#6 ∨ j = 63#6) →
      ({ State.reset with flight := some .transform, stepCounter := j } : State).stepping = true ∧
      ({ State.reset with flight := some .transform, stepCounter := j } : State).rst = false :=
  fun _ _ => ⟨rfl, rfl⟩
theorem witness_PresentedCommandWaitsWhileBusy :
    ({ State.reset with flight := some (.respond .ok), port := [.cmd 0x003 0] } : State).busy = true ∧
      ({ State.reset with flight := some (.respond .ok), port := [.cmd 0x003 0] } : State).port = .cmd 0x003 0 :: [] := by decide
theorem witness_EveryCommandHasOneResponse :
    ({ State.reset with port := [.cmd 0x002 0] } : State).flight = none ∧
      ({ State.reset with port := [.cmd 0x002 0] } : State).view = .command ∧
      ({ State.reset with port := [.cmd 0x002 0] } : State).port = [.cmd 0x002 0] := by decide
theorem witness_IdleEngineHoldsItsState :
    State.reset.flight = none ∧ State.reset.port = [] ∧
      ({ State.reset with port := [.idle] } : State).port = .idle :: [] := by decide
theorem witness_EveryStepKeepsTheInvariant :
    ({ State.reset with port := [.cmd 0x005 0] } : State).Inv ∧
      step { State.reset with port := [.cmd 0x005 0] } = .next (State.reset.enterFault .illegalCommand) :=
  ⟨by decide, rfl⟩
theorem witness_TheTwoViewsAgree :
    ({ State.reset with view := .sequencer, port := [.cmd 0x002 0, .cmd 0x003 0] } : State).flight = none ∧
      ({ State.reset with view := .sequencer, port := [.cmd 0x002 0, .cmd 0x003 0] } : State).view = .sequencer ∧
      ({ State.reset with view := .sequencer, port := [.cmd 0x002 0, .cmd 0x003 0] } : State).port =
        .cmd 0x002 0 :: [.cmd 0x003 0] ∧
      heldOnly [.cmd 0x003 0] = true ∧ heldOnly [] = true := by decide

end Sys2Proof.Tests
end

section
/-! The buffer's word addresses and the idle engine (00_scope.md, sections 5 and 6). -/

namespace Sys2Proof.Machine

/-! ## The buffer's word addresses -/

/-- R58 at the addresses of R14. -/
theorem memRead_writeWord_same (m : Memory) {a : Nat} (ha : a % 4 = 0 ∧ a ≤ 60) (w : Word) :
    memRead (writeWord m (a / 4) w) a = .ok w := by
  rw [memRead_eq, if_pos ha, readWord_writeWord, if_pos rfl]

/-- Two different word addresses lie in different words; off the word addresses the buffer is not asked. -/
theorem memRead_writeWord_other (m : Memory) {a b : Nat} (ha : a % 4 = 0) (hne : b ≠ a) (w : Word) :
    memRead (writeWord m (a / 4) w) b = memRead m b := by
  rw [memRead_eq, memRead_eq]
  by_cases hb : b % 4 = 0 ∧ b ≤ 60
  · have hword : b / 4 ≠ a / 4 := by omega
    rw [if_pos hb, if_pos hb, readWord_writeWord, if_neg hword]
  · rw [if_neg hb, if_neg hb]

/-- Settles O35: at a word address by the two read-after-write rules, elsewhere by the address check. -/
theorem bufferReadsWhatWasWritten : Obligations.BufferReadsWhatWasWritten := by
  intro m a w
  refine ⟨fun ha => ⟨writeWord m (a / 4) w, ?_, memRead_writeWord_same m ha w, ?_⟩, fun ha => ⟨?_, ?_⟩⟩
  · rw [memWrite_eq, if_pos ha]
  · exact fun _ hne => memRead_writeWord_other m ha.1 hne w
  · rw [memWrite_eq, if_neg ha]
  · rw [memRead_eq, if_neg ha]

/-! ## The idle engine -/

/-- An edge that leaves the port as it is takes away only the response. -/
theorem State.passEdge_of_port_eq {s : State} {p : List Drive} (h : s.port = p) :
    s.passEdge p = { s with rsp := none } := by
  subst h
  rfl

/-- Settles O44, by what one rising edge does to an engine with no command in flight: with nothing left on the
port, and with an idle edge. -/
theorem idleEngineHoldsItsState : Obligations.IdleEngineHoldsItsState := by
  intro s rest hflight
  constructor
  · intro hport
    rw [step, clockEdge_nothing hflight hport, State.passEdge_of_port_eq hport]
  · intro hport
    rw [step, clockEdge_idle hflight hport, State.passEdge]

end Sys2Proof.Machine
end

section
/-! What an instruction and a rising edge can do, said once: the inversion of `exec`, of acceptance, of an edge with
steps running and of an edge (10_state.md, sections 2 to 4; 60_execution.md). -/

namespace Sys2Proof.Machine

open Sys2Proof

/-! ## The inversion of `exec` -/

/-- What instruction `i` makes of the state `s`: one rule per command that succeeds, one per fault, one for the four
step micro-operations (R155), which are step `j` with the function of its quarter, and one for the pin. -/
inductive Effect (s : State) : Instr → State → Prop
  | reset : Effect s .reset (s.restore.respond .ok)
  | encode {len : BitVec 6} {msg : BitVec 440} (hlen : tooLong len = false) :
      Effect s (.encode len msg) ((s.setMem (encodeBuffer len msg s.mem)).respond .ok)
  | transform : Effect s .transform (s.performTransform.respond .ok)
  | finalize : Effect s .finalize (s.respond (digestResponse s.x))
  | digest {len : BitVec 6} {msg : BitVec 440} (hlen : tooLong len = false) :
      Effect s (.digest len msg)
        ((s.setMem (encodeBuffer len msg s.mem)).performTransform.respond
          (digestResponse (s.setMem (encodeBuffer len msg s.mem)).performTransform.x))
  | lengthFault {i : Instr} {len : BitVec 6} {msg : BitVec 440} (hi : i = .encode len msg ∨ i = .digest len msg)
      (hlen : tooLong len = true) : Effect s i (s.enterFault .msgTooLong)
  | opcodeFault {i : Instr} (hi : i = .reserved5 ∨ i = .reserved6 ∨ i = .reserved7) :
      Effect s i (s.enterFault .illegalCommand)
  | microStep {i : Instr} {j : BitVec 6} (hi : encode i = .step j) :
      Effect s i (s.performStep (roundFn (quarter j)) j)
  | hwreset : Effect s .hwreset s.hardReset

/-- An instruction that is encoded as a step index is what the sequencer fetches for it (R88). -/
theorem decodeStep_of_encode {i : Instr} {j : BitVec 6} (h : encode i = .step j) : decodeStep j = i := by
  cases i with
  | stepF pos | stepG pos | stepH pos | stepI pos =>
    cases h
    revert pos
    decide
  | _ => cases h

theorem Effect.exec_eq {i : Instr} {s t : State} (h : Effect s i t) : exec i s = .next t := by
  cases h with
  | reset | transform | finalize | hwreset => rfl
  | encode hlen => simp only [exec, execEncode, hlen, Bool.false_eq_true, if_false]
  | digest hlen => simp only [exec, execDigest, hlen, Bool.false_eq_true, if_false]
  | lengthFault hi hlen =>
    rcases hi with rfl | rfl
    · simp only [exec, execEncode, hlen, if_true]
    · simp only [exec, execDigest, hlen, if_true]
  | opcodeFault hi => rcases hi with rfl | rfl | rfl <;> rfl
  | microStep hi => rw [← decodeStep_of_encode hi, exec_decodeStep]

/-- Every instruction has an effect in every state (R95, R251). -/
theorem exists_effect (i : Instr) (s : State) : ∃ t, Effect s i t := by
  cases i with
  | reset => exact ⟨_, .reset⟩
  | encode len msg =>
    cases hlen : tooLong len
    · exact ⟨_, .encode hlen⟩
    · exact ⟨_, .lengthFault (.inl rfl) hlen⟩
  | transform => exact ⟨_, .transform⟩
  | finalize => exact ⟨_, .finalize⟩
  | digest len msg =>
    cases hlen : tooLong len
    · exact ⟨_, .digest hlen⟩
    · exact ⟨_, .lengthFault (.inr rfl) hlen⟩
  | reserved5 => exact ⟨_, .opcodeFault (.inl rfl)⟩
  | reserved6 => exact ⟨_, .opcodeFault (.inr (.inl rfl))⟩
  | reserved7 => exact ⟨_, .opcodeFault (.inr (.inr rfl))⟩
  | stepF pos | stepG pos | stepH pos | stepI pos => exact ⟨_, .microStep rfl⟩
  | hwreset => exact ⟨_, .hwreset⟩

/-- The rules of `Effect` say all that `exec` can answer. -/
theorem exec_eq_next_iff {i : Instr} {s t : State} : exec i s = .next t ↔ Effect s i t := by
  refine ⟨fun h => ?_, Effect.exec_eq⟩
  obtain ⟨u, hu⟩ := exists_effect i s
  have htu : Host.Outcome.next t = .next u := h.symm.trans hu.exec_eq
  cases htu
  exact hu

theorem mapNext_eq_next_iff {g : State → State} {o : Host.Outcome State Fault Refusal} {t : State} :
    mapNext g o = .next t ↔ ∃ u, o = .next u ∧ g u = t := by
  cases o <;> simp [mapNext]

/-! ## Responses -/

section
variable (s : State) (f : Flight)

@[simp] theorem State.complete_mem : (s.complete f).mem = s.mem := by cases f <;> rfl
@[simp] theorem State.complete_stepCounter : (s.complete f).stepCounter = s.stepCounter := by cases f <;> rfl
@[simp] theorem State.complete_flight : (s.complete f).flight = none := by cases f <;> rfl
@[simp] theorem State.complete_err : (s.complete f).err = s.err := by cases f <;> rfl
@[simp] theorem State.complete_cause : (s.complete f).cause = s.cause := by cases f <;> rfl
@[simp] theorem State.complete_rspValid : (s.complete f).rspValid = true := by cases f <;> rfl

@[simp] theorem State.deferResponse_mem : s.deferResponse.mem = s.mem := by
  unfold State.deferResponse; split <;> rfl
@[simp] theorem State.deferResponse_stepCounter : s.deferResponse.stepCounter = s.stepCounter := by
  unfold State.deferResponse; split <;> rfl
@[simp] theorem State.deferResponse_err : s.deferResponse.err = s.err := by
  unfold State.deferResponse; split <;> rfl
@[simp] theorem State.deferResponse_cause : s.deferResponse.cause = s.cause := by
  unfold State.deferResponse; split <;> rfl

end

/-! ## Acceptance -/

/-- A command word is a command, no step and not the pin (R95). -/
theorem encodedFormat_decodeCmd (word : BitVec 9) (msg : BitVec 440) :
    encodedFormat (encode (decodeCmd word msg)) = .cmd := by
  unfold decodeCmd; split <;> rfl

/-- Acceptance of a command in the sequencer view (R82): the steps begin, over the buffer as it is or as ENCODE leaves
it, or the command is performed and its response held back. -/
theorem acceptCommand_cases {i : Instr} {s t : State} (hi : encodedFormat (encode i) = .cmd)
    (h : acceptCommand i s = .next t) :
    (i = .transform ∧ t = s.beginSteps .transform) ∨
    (∃ len msg, i = .digest len msg ∧ tooLong len = false ∧
      t = (s.setMem (encodeBuffer len msg s.mem)).beginSteps .digest) ∨
    ∃ u, Effect s i u ∧ t = u.deferResponse := by
  have hperformed (hdefer : mapNext State.deferResponse (exec i s) = .next t) :
      ∃ u, Effect s i u ∧ t = u.deferResponse := by
    obtain ⟨u, hu, rfl⟩ := mapNext_eq_next_iff.mp hdefer
    exact ⟨u, exec_eq_next_iff.mp hu, rfl⟩
  cases i with
  | transform => cases h; exact .inl ⟨rfl, rfl⟩
  | digest len msg =>
    rw [acceptCommand] at h
    split at h
    · exact .inr (.inr (hperformed h))
    · next hlen => cases h; exact .inr (.inl ⟨len, msg, rfl, Bool.eq_false_iff.mpr hlen, rfl⟩)
  | reset | encode | finalize | reserved5 | reserved6 | reserved7 => exact .inr (.inr (hperformed h))
  | stepF | stepG | stepH | stepI | hwreset => cases hi

/-! ## Steps running -/

theorem State.stepping_iff {s : State} :
    s.stepping = true ↔ ∃ f, s.flight = some f ∧ (f = .transform ∨ f = .digest) := by
  simp only [State.stepping, Bool.or_eq_true, beq_iff_eq]
  constructor
  · rintro (h | h)
    · exact ⟨_, h, .inl rfl⟩
    · exact ⟨_, h, .inr rfl⟩
  · rintro ⟨f, h, rfl | rfl⟩
    · exact .inl h
    · exact .inr h

/-- The step at STEP (R23, R155). -/
def State.nextStep (s : State) : State := s.performStep (roundFn (quarter s.stepCounter)) s.stepCounter

section
variable (s : State)

@[simp] theorem State.nextStep_mem : s.nextStep.mem = s.mem := by rfl
@[simp] theorem State.nextStep_stepCounter : s.nextStep.stepCounter = s.stepCounter + 1 := by rfl
@[simp] theorem State.nextStep_flight : s.nextStep.flight = s.flight := by rfl
@[simp] theorem State.nextStep_err : s.nextStep.err = s.err := by rfl
@[simp] theorem State.nextStep_cause : s.nextStep.cause = s.cause := by rfl
@[simp] theorem State.nextStep_rsp : s.nextStep.rsp = s.rsp := by rfl

end

/-- While steps run an edge performs the step at STEP; the one at 63 ends the command (R24, R26). -/
theorem busyEdge_stepping {f : Flight} (hf : f = .transform ∨ f = .digest) (s : State) :
    busyEdge f s = .next (if s.stepCounter = 63#6 then s.nextStep.complete f else s.nextStep) := by
  have hexec : exec (fetchStep s) s = .next s.nextStep := exec_decodeStep s.stepCounter s
  rcases hf with rfl | rfl <;> simp only [busyEdge, hexec] <;> split <;> rfl

/-! ## One rising edge -/

theorem State.rst_iff {s : State} : s.rst = true ↔ ∃ rest, s.port = .rst :: rest := by
  unfold State.rst
  split <;> simp [*]

theorem State.port_ne_rst {s : State} (h : s.rst = false) (rest : List Drive) : s.port ≠ .rst :: rest :=
  fun hport => Bool.eq_false_iff.mp h (State.rst_iff.mpr ⟨rest, hport⟩)

/-- What one edge is, by what the port holds and what is in flight (R82, R111, R217, R247). -/
theorem clockEdge_cases (s : State) :
    (∃ rest, s.port = .rst :: rest ∧ clockEdge s = exec .hwreset (s.passEdge rest)) ∨
    (∃ f, s.rst = false ∧ s.flight = some f ∧ clockEdge s = busyEdge f (s.passEdge (holdCommand s.port))) ∨
    (∃ word msg rest, s.flight = none ∧ s.port = .cmd word msg :: rest ∧
      clockEdge s = runCommand (decodeCmd word msg) (s.passEdge rest)) ∨
    (∃ rest, s.flight = none ∧ (s.port = .idle :: rest ∨ s.port = [] ∧ rest = []) ∧
      clockEdge s = .next (s.passEdge rest)) := by
  cases hrst : s.rst with
  | true =>
    obtain ⟨rest, hport⟩ := State.rst_iff.mp hrst
    exact .inl ⟨rest, hport, clockEdge_rst hport⟩
  | false =>
    cases hf : s.flight with
    | some f => exact .inr (.inl ⟨f, rfl, rfl, clockEdge_busy hf (State.port_ne_rst hrst)⟩)
    | none =>
      match hport : s.port with
      | .rst :: rest => exact absurd hport (State.port_ne_rst hrst rest)
      | .cmd word msg :: rest => exact .inr (.inr (.inl ⟨word, msg, rest, rfl, rfl, clockEdge_command hf hport⟩))
      | .idle :: rest => exact .inr (.inr (.inr ⟨rest, rfl, .inl rfl, clockEdge_idle hf hport⟩))
      | [] => exact .inr (.inr (.inr ⟨[], rfl, .inr ⟨rfl, rfl⟩, clockEdge_nothing hf hport⟩))

end Sys2Proof.Machine
end

section
/-! The invariant of every step (10_state.md, sections 2 to 4). -/

namespace Sys2Proof.Machine

open Sys2Proof

/-- The half of the invariant that every instruction keeps by itself: the buffer is canonical, and ERR is set exactly
when CAUSE holds a fault (R26, R27, R204). -/
structure State.Coherent (s : State) : Prop where
  wf : Memory.wf s.mem = true
  err_eq : s.err = s.cause.isSome

theorem State.inv_iff {s : State} : s.Inv ↔ s.Coherent ∧ (s.stepping = true ∨ s.stepCounter = 0) := by
  simp only [State.Inv, State.inv, Bool.and_eq_true, Bool.or_eq_true, beq_iff_eq]
  exact ⟨fun ⟨⟨hwf, hstep⟩, herr⟩ => ⟨⟨hwf, herr⟩, hstep⟩, fun ⟨hs, hstep⟩ => ⟨⟨hs.wf, hstep⟩, hs.err_eq⟩⟩

/-- Coherence depends on the buffer, ERR and CAUSE alone. -/
theorem State.Coherent.congr {s t : State} (hs : s.Coherent) (hmem : t.mem = s.mem) (herr : t.err = s.err)
    (hcause : t.cause = s.cause) : t.Coherent :=
  ⟨by rw [hmem]; exact hs.wf, by rw [herr, hcause]; exact hs.err_eq⟩

theorem State.Coherent.setMem_encodeBuffer {s : State} (hs : s.Coherent) (len : BitVec 6) (msg : BitVec 440) :
    (s.setMem (encodeBuffer len msg s.mem)).Coherent :=
  ⟨wf_encodeBuffer hs.wf len msg, hs.err_eq⟩

theorem Effect.keeps_coherent {i : Instr} {s t : State} (h : Effect s i t) (hs : s.Coherent) : t.Coherent := by
  cases h with
  | reset | hwreset => exact ⟨rfl, rfl⟩
  | @encode len msg => exact (hs.setMem_encodeBuffer len msg).congr rfl rfl rfl
  | @digest len msg => exact (hs.setMem_encodeBuffer len msg).congr (by simp) (by simp) (by simp)
  | transform => exact hs.congr (by simp) (by simp) (by simp)
  | finalize => exact hs.congr rfl rfl rfl
  | lengthFault | opcodeFault => exact ⟨hs.wf, rfl⟩
  | microStep => exact hs.congr rfl rfl rfl

/-- A whole command that starts at STEP 0 ends there (R23). -/
theorem Effect.stepCounter_eq_zero {i : Instr} {s t : State} (h : Effect s i t)
    (hi : encodedFormat (Sys2Proof.encode i) = .cmd) (hs : s.stepCounter = 0) : t.stepCounter = 0 := by
  cases h with
  | microStep henc => rw [henc] at hi; cases hi
  | _ => simp [hs]

/-- A command accepted with the engine at rest keeps the invariant, in both views. -/
theorem runCommand_keeps_inv {i : Instr} {s t : State} (hi : encodedFormat (encode i) = .cmd) (hs : s.Coherent)
    (hstep : s.stepCounter = 0) (h : runCommand i s = .next t) : t.Inv := by
  have hperformed {u : State} (hu : Effect s i u) : u.Coherent ∧ u.stepCounter = 0 :=
    ⟨hu.keeps_coherent hs, hu.stepCounter_eq_zero hi hstep⟩
  rw [State.inv_iff]
  cases hview : s.view <;> simp only [runCommand, hview] at h
  case command => exact (hperformed (exec_eq_next_iff.mp h)).imp id .inr
  case sequencer =>
    rcases acceptCommand_cases hi h with ⟨-, rfl⟩ | ⟨len, msg, -, -, rfl⟩ | ⟨u, hu, rfl⟩
    · exact ⟨hs.congr rfl rfl rfl, .inl rfl⟩
    · exact ⟨(hs.setMem_encodeBuffer len msg).congr rfl rfl rfl, .inl rfl⟩
    · obtain ⟨hcoh, hzero⟩ := hperformed hu
      exact ⟨hcoh.congr (by simp) (by simp) (by simp), .inr (by simp [hzero])⟩

/-- An edge with a command in flight keeps the invariant: a running transform goes on or ends with STEP back at 0, and
with a response due STEP was 0 already (R23, R24). -/
theorem busyEdge_keeps_inv {f : Flight} {s t : State} (hf : s.flight = some f) (hs : s.Inv)
    (h : busyEdge f s = .next t) : t.Inv := by
  obtain ⟨hcoh, hstep⟩ := State.inv_iff.mp hs
  rw [State.inv_iff]
  cases f with
  | respond r =>
    cases h
    refine ⟨hcoh.congr rfl rfl rfl, .inr ?_⟩
    simpa [State.stepping, hf] using hstep
  | transform | digest =>
    rw [busyEdge_stepping (by simp)] at h
    cases h
    split
    · next hlast => exact ⟨hcoh.congr (by simp) (by simp) (by simp), .inr (by simp [hlast])⟩
    · exact ⟨hcoh.congr rfl rfl rfl, .inl (by simp [State.stepping, hf])⟩

/-- Settles O45, by the kinds of edge: reset, a command in flight, a command accepted, nothing presented. -/
theorem everyStepKeepsTheInvariant : Obligations.EveryStepKeepsTheInvariant := by
  intro s t hs h
  have hpass (port : List Drive) : (s.passEdge port).Inv := hs
  obtain ⟨hcoh, hstep⟩ := State.inv_iff.mp hs
  rw [step] at h
  rcases clockEdge_cases s with
    ⟨rest, -, hedge⟩ | ⟨f, -, hf, hedge⟩ | ⟨word, msg, rest, hf, -, hedge⟩ | ⟨rest, -, -, hedge⟩ <;> rw [hedge] at h
  · cases h; exact State.inv_iff.mpr ⟨⟨rfl, rfl⟩, .inr rfl⟩
  · exact busyEdge_keeps_inv (s := s.passEdge _) hf (hpass _) h
  · have hzero : s.stepCounter = 0 := by simpa [State.stepping, hf] using hstep
    exact runCommand_keeps_inv (s := s.passEdge rest) (encodedFormat_decodeCmd word msg) (hcoh.congr rfl rfl rfl)
      hzero h
  · cases h; exact hpass rest

/-- Settles O46: an empty buffer, STEP 0, ERR 0 and no CAUSE. -/
theorem resetStateHasTheInvariant : Obligations.ResetStateHasTheInvariant :=
  State.inv_iff.mpr ⟨⟨rfl, rfl⟩, .inr rfl⟩

end Sys2Proof.Machine
end

section
/-! Who reads and who writes which part of the state (10_state.md, sections 1 to 4). -/

namespace Sys2Proof.Machine

open Sys2Proof

/-! ## ERR and CAUSE -/

/-- Settles O30: the other instructions leave ERR and CAUSE or enter a fault. -/
theorem onlyResetsClearTheFaultRecord : Obligations.OnlyResetsClearTheFaultRecord := by
  intro i s t hreset hhwreset h
  cases exec_eq_next_iff.mp h with
  | reset => exact absurd rfl hreset
  | hwreset => exact absurd rfl hhwreset
  | _ => simp

/-- `s` and `t` are alike in all but ERR and CAUSE. -/
structure State.AlikeButFault (s t : State) : Prop where
  x_eq : t.x = s.x
  mem_eq : t.mem = s.mem
  stepCounter_eq : t.stepCounter = s.stepCounter
  flight_eq : t.flight = s.flight
  rsp_eq : t.rsp = s.rsp
  port_eq : t.port = s.port
  view_eq : t.view = s.view

/-- No rule of `Effect` looks at ERR or CAUSE. -/
theorem Effect.alikeButFault {i : Instr} {s s' t : State} (h : Effect s i t) (hs : s.AlikeButFault s') :
    ∃ t', Effect s' i t' ∧ t.AlikeButFault t' := by
  obtain ⟨hx, hmem, hstep, hflight, hrsp, hport, hview⟩ := hs
  cases h with
  | reset => exact ⟨_, .reset, by constructor <;> simp [*]⟩
  | encode hlen => exact ⟨_, .encode hlen, by constructor <;> simp [*]⟩
  | transform => exact ⟨_, .transform, by constructor <;> simp [*]⟩
  | finalize => exact ⟨_, .finalize, by constructor <;> simp [*]⟩
  | digest hlen => exact ⟨_, .digest hlen, by constructor <;> simp [*]⟩
  | lengthFault hi hlen => exact ⟨_, .lengthFault hi hlen, by constructor <;> simp [*]⟩
  | opcodeFault hi => exact ⟨_, .opcodeFault hi, by constructor <;> simp [*]⟩
  | microStep hi => exact ⟨_, .microStep hi, by constructor <;> simp [*]⟩
  | hwreset => exact ⟨_, .hwreset, by constructor <;> simp [*]⟩

/-- Settles O31, by the effects of one instruction in two states that are alike but for ERR and CAUSE. -/
theorem errAffectsNoCommand : Obligations.ErrAffectsNoCommand := by
  intro i s e c
  obtain ⟨t, ht⟩ := exists_effect i s
  have hs : s.AlikeButFault { s with err := e, cause := c } := ⟨rfl, rfl, rfl, rfl, rfl, rfl, rfl⟩
  obtain ⟨u, hu, hx, hmem, hstep, hflight, hrsp, hport, hview⟩ := ht.alikeButFault hs
  exact ⟨t, u, ht.exec_eq, hu.exec_eq, hx, hmem, hstep, hflight, hrsp, hport, hview⟩

/-! ## The buffer, the registers and STEP -/

section
variable {i : Instr} {s t : State} (h : Effect s i t)
include h

/-- The buffer is written by RESET, HWRESET, ENCODE and DIGEST only (R30). -/
theorem Effect.mem_eq (hbuf : ∀ len msg, i ≠ .encode len msg ∧ i ≠ .digest len msg) (hreset : i ≠ .reset)
    (hhwreset : i ≠ .hwreset) : t.mem = s.mem := by
  cases h with
  | reset => exact absurd rfl hreset
  | hwreset => exact absurd rfl hhwreset
  | encode => exact absurd rfl (hbuf _ _).1
  | digest => exact absurd rfl (hbuf _ _).2
  | _ => simp

/-- ENCODE, FINALIZE and the reserved opcodes leave the registers (R21). -/
theorem Effect.x_eq
    (hi : (∃ len msg, i = .encode len msg) ∨ i = .finalize ∨ i = .reserved5 ∨ i = .reserved6 ∨ i = .reserved7) :
    t.x = s.x := by
  cases h with
  | reset | transform | digest | hwreset => simp at hi
  | microStep henc => rcases hi with ⟨_, _, rfl⟩ | rfl | rfl | rfl | rfl <;> cases henc
  | _ => simp

/-- Of the commands only TRANSFORM and DIGEST write STEP (R24). -/
theorem Effect.stepCounter_eq
    (hi : (∃ len msg, i = .encode len msg) ∨ i = .reset ∨ i = .finalize ∨ i = .reserved5 ∨ i = .reserved6 ∨
      i = .reserved7) :
    t.stepCounter = s.stepCounter := by
  cases h with
  | transform | digest | hwreset => simp at hi
  | microStep henc => rcases hi with ⟨_, _, rfl⟩ | rfl | rfl | rfl | rfl | rfl <;> cases henc
  | _ => simp

/-- No instruction writes what the host drives or the view. -/
theorem Effect.port_view_eq : t.port = s.port ∧ t.view = s.view := by
  cases h <;> simp

end

/-- Settles O34, one lemma per part of the state. -/
theorem onlyTheNamedInstructionsWrite : Obligations.OnlyTheNamedInstructionsWrite := by
  intro i s t h
  have he := exec_eq_next_iff.mp h
  refine ⟨fun hbuf hreset hhwreset a => ?_, he.x_eq, he.stepCounter_eq, he.port_view_eq⟩
  rw [he.mem_eq hbuf hreset hhwreset]

/-! ## STEP while steps run -/

/-- Settles O41: the edge performs the step at STEP, and completes the command exactly at 63. -/
theorem sequencerWalksThroughStep : Obligations.SequencerWalksThroughStep := by
  intro s hstepping hrst
  obtain ⟨f, hflight, hf⟩ := State.stepping_iff.mp hstepping
  rw [step, clockEdge_busy hflight (State.port_ne_rst hrst), busyEdge_stepping hf]
  refine ⟨_, rfl, ?_⟩
  by_cases hlast : s.stepCounter = 63#6
  · simp [hlast, State.busy]
  · simp [hlast, State.busy, State.rspValid, hflight]

/-! ## STATUS -/

/-- No fault has the code 3 (R27, R85). -/
theorem faultCode_ne_three (f : CommandFault) : faultCode f ≠ 3 := by
  cases f <;> decide

theorem causeCode_ne_three (c : Option CommandFault) : causeCode c ≠ 3 := by
  cases c with
  | none => decide
  | some f => exact faultCode_ne_three f

theorem responseStatus_ne_three (r : Response) : responseStatus r ≠ 3 := by
  cases r with
  | ok | okDigest => exact (by decide : (0 : BitVec 2) ≠ 3)
  | rejected f => exact faultCode_ne_three f

/-- Bit `i` of STATUS, by the field it lies in (R27). -/
theorem State.getLsbD_status (s : State) (i : Nat) :
    s.status.getLsbD i =
      if i < 1 then (BitVec.ofBool s.busy).getLsbD i
      else if i - 1 < 1 then (BitVec.ofBool s.err).getLsbD (i - 1)
      else if i - 1 - 1 < 2 then (causeCode s.cause).getLsbD (i - 1 - 1)
      else s.stepCounter.getLsbD (i - 1 - 1 - 2) := by
  rw [← BitVec.getLsbD_append, ← BitVec.getLsbD_append, ← BitVec.getLsbD_append]
  rfl

theorem State.status_cause (s : State) : s.status.extractLsb' 2 2 = causeCode s.cause := by
  apply BitVec.eq_of_getLsbD_eq
  intro i hi
  rw [BitVec.getLsbD_extractLsb', s.getLsbD_status, if_neg (by omega), if_neg (by omega), if_pos (by omega),
    show 2 + i - 1 - 1 = i by omega]
  simp [hi]

theorem State.status_step (s : State) : s.status.extractLsb' 4 6 = s.stepCounter := by
  apply BitVec.eq_of_getLsbD_eq
  intro i hi
  rw [BitVec.getLsbD_extractLsb', s.getLsbD_status, if_neg (by omega), if_neg (by omega), if_neg (by omega),
    show 4 + i - 1 - 1 - 2 = i by omega]
  simp [hi]

/-- Settles O32, field by field. -/
theorem statusShowsTheFlags : Obligations.StatusShowsTheFlags := by
  intro s
  refine ⟨?_, ?_, s.status_cause, s.status_step, ?_, ?_, rfl⟩
  · simp only [s.getLsbD_status]
    simp
  · simp only [s.getLsbD_status]
    simp
  · rw [s.status_cause]
    exact causeCode_ne_three s.cause
  · intro h
    obtain ⟨r, -, hr⟩ := Option.map_eq_some_iff.mp h
    exact responseStatus_ne_three r hr

end Sys2Proof.Machine
end

section
/-! The block of a message as ENCODE leaves it in the buffer, byte by byte (20_memory.md, sections 1 to 4). -/

namespace Sys2Proof.Machine

open Sys2Proof

/-! ## The packed words -/

/-- The packed words are those up to the one that holds the terminator (R51, R89). -/
theorem lt_encodedWords_iff (len : BitVec 6) (i : Nat) : i < encodedWords len ↔ i ≤ len.toNat / 4 := by
  rw [encodedWords]
  omega

/-- The words that ENCODE packs hold the padded message (R50, R120). -/
theorem memReadByte_encodeBuffer_packed {len : BitVec 6} (hlen : len.toNat ≤ 55) {a : Nat} (ha : a / 4 ≤ len.toNat / 4)
    (msg : BitVec 440) (m : Memory) : memReadByte (encodeBuffer len msg m) a = padByte len msg a := by
  rw [memReadByte_encodeBuffer, if_neg (by omega), if_neg (by omega), if_pos ((lt_encodedWords_iff len _).mpr ha),
    byteOfWord_packedWord _ _ _ _ (by omega), Nat.div_add_mod]

/-- Between the packed words and the bit length ENCODE leaves the buffer (R122). -/
theorem memReadByte_encodeBuffer_unwritten {len : BitVec 6} {a : Nat} (hpacked : len.toNat / 4 < a / 4) (ha : a < 56)
    (msg : BitVec 440) (m : Memory) : memReadByte (encodeBuffer len msg m) a = memReadByte m a := by
  rw [memReadByte_encodeBuffer, if_neg (by omega), if_neg (by omega), if_neg (by rw [lt_encodedWords_iff]; omega)]

theorem padByte_of_lt {len : BitVec 6} {a : Nat} (ha : a < len.toNat) (msg : BitVec 440) :
    padByte len msg a = msgByte msg a := if_pos ha

theorem padByte_len (len : BitVec 6) (msg : BitVec 440) : padByte len msg len.toNat = 0x80#8 := by
  simp [padByte]

theorem padByte_of_gt {len : BitVec 6} {a : Nat} (ha : len.toNat < a) (msg : BitVec 440) : padByte len msg a = 0 := by
  rw [padByte, if_neg (by omega), if_neg (by omega)]
  rfl

/-- Settles O9: the bytes up to the terminator lie in the packed words, so each is read as the padded message's. -/
theorem messageIsPackedLittleEndian : Obligations.MessageIsPackedLittleEndian := by
  intro len msg s hlen
  refine ⟨_, (Effect.encode (tooLong_of_le hlen)).exec_eq, ?_⟩
  have hbyte {a : Nat} (ha : a ≤ len.toNat) :
      byteOfWord (readWord (encodeBuffer len msg s.mem) (a / 4)) (a % 4) = padByte len msg a := by
    rw [byteOfWord_readWord, memReadByte_encodeBuffer_packed hlen (Nat.div_le_div_right ha)]
  exact ⟨fun a ha => (hbyte ha.le).trans (padByte_of_lt ha msg), (hbyte le_rfl).trans (padByte_len len msg)⟩

/-! ## The bit length -/

theorem byteOfWord_zero (k : Nat) : byteOfWord 0 k = 0 := by
  simp [byteOfWord]

theorem byteOfWord_ofNat (n : Nat) {k : Nat} (hk : k < 4) :
    byteOfWord (BitVec.ofNat 32 n) k = BitVec.ofNat 8 (n / 2 ^ (8 * k)) := by
  apply BitVec.eq_of_getLsbD_eq
  intro i hi
  have hbit : i + 8 * k < 32 := by omega
  simp only [byteOfWord, BitVec.getLsbD_extractLsb', BitVec.getLsbD_ofNat, Nat.testBit_div_two_pow, hi, hbit,
    decide_true, Bool.true_and, Nat.add_comm]

/-- The low word of the bit length (R52). -/
theorem bitLength_low (len : BitVec 6) : (bitLength len).extractLsb' 0 32 = BitVec.ofNat 32 (8 * len.toNat) := by
  revert len
  decide

theorem bitLength_high (len : BitVec 6) : (bitLength len).extractLsb' 32 32 = 0 := by
  revert len
  decide

/-- The bit length is at most 504, so only its two low bytes can differ from 0 (R52). -/
theorem bitLength_div_eq_zero (len : BitVec 6) {k : Nat} (hk : 2 ≤ k) : 8 * len.toNat / 2 ^ (8 * k) = 0 := by
  apply Nat.div_eq_of_lt
  calc 8 * len.toNat < 2 ^ 16 := by omega
    _ ≤ 2 ^ (8 * k) := Nat.pow_le_pow_right (by decide) (by omega)

/-- Words 14 and 15 hold the bit length, its low byte first (R52). -/
theorem memReadByte_encodeBuffer_bitLength (len : BitVec 6) (msg : BitVec 440) (m : Memory) {a : Nat} (hlo : 56 ≤ a)
    (hhi : a < 64) :
    memReadByte (encodeBuffer len msg m) a = BitVec.ofNat 8 (8 * len.toNat / 2 ^ (8 * (a - 56))) := by
  rw [memReadByte_encodeBuffer]
  by_cases h15 : a / 4 = 15
  · rw [if_pos h15, bitLength_high, bitLength_div_eq_zero len (by omega)]
    exact byteOfWord_zero (a % 4)
  · rw [if_neg h15, if_pos (by omega), bitLength_low, byteOfWord_ofNat _ (by omega), show a % 4 = a - 56 by omega]

/-! ## The whole block -/

theorem blockByte_of_lt (len : BitVec 6) (msg : BitVec 440) {a : Nat} (ha : a < 56) :
    blockByte len msg a = padByte len msg a := by
  rw [blockByte, padByte, if_neg (show a ≠ 56 by omega), if_neg (show a ≠ 57 by omega)]

theorem blockByte_of_ge {len : BitVec 6} (hlen : len.toNat ≤ 55) (msg : BitVec 440) {a : Nat} (ha : 56 ≤ a) :
    blockByte len msg a = BitVec.ofNat 8 (8 * len.toNat / 2 ^ (8 * (a - 56))) := by
  rw [blockByte, if_neg (by omega), if_neg (by omega)]
  by_cases h56 : a = 56
  · simp [h56]
  by_cases h57 : a = 57
  · simp [h57]
  · rw [if_neg h56, if_neg h57, bitLength_div_eq_zero len (by omega)]

/-- A buffer whose bytes are 0 holds exactly the block after ENCODE's writes (R59). -/
theorem memReadByte_encodeBuffer_of_zero {len : BitVec 6} (hlen : len.toNat ≤ 55) (msg : BitVec 440) {m : Memory}
    (hm : ∀ a < 64, memReadByte m a = 0) {a : Nat} (ha : a < 64) :
    memReadByte (encodeBuffer len msg m) a = blockByte len msg a := by
  by_cases hpacked : a / 4 ≤ len.toNat / 4
  · rw [memReadByte_encodeBuffer_packed hlen hpacked, blockByte_of_lt len msg (by omega)]
  by_cases h56 : a < 56
  · rw [memReadByte_encodeBuffer_unwritten (by omega) h56, hm a ha, blockByte_of_lt len msg h56,
      padByte_of_gt (by omega)]
  · rw [memReadByte_encodeBuffer_bitLength len msg m (by omega) ha, blockByte_of_ge hlen msg (by omega)]

/-- The bytes of a buffer whose words are 0 (R14). -/
theorem memReadByte_eq_zero_of_word {s : State} (h : ∀ i < 16, s.word i = 0) : ∀ a < 64, memReadByte s.mem a = 0 := by
  intro a ha
  have hword : readWord s.mem (a / 4) = 0 := h (a / 4) (by omega)
  rw [← byteOfWord_readWord, hword, byteOfWord_zero]

/-- Settles O10, by the three parts of the block: the packed words, the zeros left as they were, the bit length. -/
theorem encodeOnAZeroBufferMakesTheBlock : Obligations.EncodeOnAZeroBufferMakesTheBlock := by
  intro len msg s hlen hzero
  exact ⟨_, (Effect.encode (tooLong_of_le hlen)).exec_eq, fun a ha =>
    memReadByte_encodeBuffer_of_zero hlen msg (memReadByte_eq_zero_of_word hzero) ha⟩

end Sys2Proof.Machine
end

section
/-! The forms of an instruction on the ports: the command word with its message bus, the step index, the pin, and the
one number of the model's layout (30_encoding.md, sections 3, 5, 7 and 9). -/

namespace Sys2Proof.Machine

open Sys2Proof

/-! ## The used message bytes -/

/-- The decoder keeps the bits of the message bytes below `len` (R84). -/
theorem getLsbD_keepBytes (len : BitVec 6) (msg : BitVec 440) (i : Nat) :
    (keepBytes len msg).getLsbD i = (decide (i < 8 * len.toNat) && msg.getLsbD i) := by
  rw [keepBytes, BitVec.getLsbD_ofNat, Nat.testBit_mod_two_pow, BitVec.testBit_toNat]
  by_cases hi : i < 440
  · simp [hi]
  · simp [hi, BitVec.getLsbD_of_ge msg i (by omega)]

theorem msgByte_keepBytes {len : BitVec 6} {a : Nat} (ha : a < len.toNat) (msg : BitVec 440) :
    msgByte (keepBytes len msg) a = msgByte msg a := by
  apply BitVec.eq_of_getLsbD_eq
  intro i hi
  have hused : 8 * a + i < 8 * len.toNat := by omega
  simp [msgByte, getLsbD_keepBytes, hused]

/-- The kept message is determined by its used bytes. -/
theorem keepBytes_congr {len : BitVec 6} {msg msg' : BitVec 440}
    (h : ∀ a < len.toNat, msgByte msg a = msgByte msg' a) : keepBytes len msg = keepBytes len msg' := by
  apply BitVec.eq_of_getLsbD_eq
  intro i _
  rw [getLsbD_keepBytes, getLsbD_keepBytes]
  by_cases hused : i < 8 * len.toNat
  · have hbyte := congrArg (BitVec.getLsbD · (i % 8)) (h (i / 8) (by omega))
    have hmod : i % 8 < 8 := Nat.mod_lt i (by omega)
    simpa [msgByte, hmod, Nat.div_add_mod, hused] using hbyte
  · simp [hused]

theorem keepBytes_lt (len : BitVec 6) (msg : BitVec 440) : (keepBytes len msg).toNat < 2 ^ (8 * len.toNat) := by
  rw [keepBytes, BitVec.toNat_ofNat]
  exact (Nat.mod_le _ _).trans_lt (Nat.mod_lt _ (Nat.two_pow_pos _))

/-- ENCODE pads the used bytes only (R121). -/
theorem padByte_keepBytes (len : BitVec 6) (msg : BitVec 440) (a : Nat) :
    padByte len (keepBytes len msg) a = padByte len msg a := by
  rw [padByte, padByte]
  split
  · next ha => exact msgByte_keepBytes ha msg
  · rfl

theorem encodeBuffer_keepBytes (len : BitVec 6) (msg : BitVec 440) (m : Memory) :
    encodeBuffer len (keepBytes len msg) m = encodeBuffer len msg m := by
  have hword : packedWord len (keepBytes len msg) = packedWord len msg := by
    funext i
    simp only [packedWord, padByte_keepBytes]
  rw [encodeBuffer, encodeBuffer, hword]

theorem exec_encode_keepBytes (len : BitVec 6) (msg : BitVec 440) (s : State) :
    exec (.encode len (keepBytes len msg)) s = exec (.encode len msg) s := by
  simp only [exec, execEncode, encodeBuffer_keepBytes]

theorem exec_digest_keepBytes (len : BitVec 6) (msg : BitVec 440) (s : State) :
    exec (.digest len (keepBytes len msg)) s = exec (.digest len msg) s := by
  simp only [exec, execDigest, encodeBuffer_keepBytes]

/-! ## The command word -/

theorem decodeCmd_encode (len : BitVec 6) (msg : BitVec 440) :
    decodeCmd (len ++ 1#3) msg = .encode len (keepBytes len msg) := by
  simp [decodeCmd]

theorem decodeCmd_digest (len : BitVec 6) (msg : BitVec 440) :
    decodeCmd (len ++ 4#3) msg = .digest len (keepBytes len msg) := by
  simp [decodeCmd]

/-- The decoder sees of the message what it keeps. -/
theorem decodeCmd_congr {len : BitVec 6} {msg msg' : BitVec 440} (h : keepBytes len msg = keepBytes len msg')
    (op : BitVec 3) : decodeCmd (len ++ op) msg = decodeCmd (len ++ op) msg' := by
  simp only [decodeCmd, cmdLenField_append, h]

/-- Only ENCODE and DIGEST have a length and a message (R93, R94). -/
theorem decodeCmd_of_unused {op : BitVec 3} (hencode : op ≠ 1#3) (hdigest : op ≠ 4#3) (len : BitVec 6)
    (msg : BitVec 440) : decodeCmd (len ++ op) msg = decodeCmd (0#6 ++ op) 0 := by
  have hop : op = 0#3 ∨ op = 2#3 ∨ op = 3#3 ∨ op = 5#3 ∨ op = 6#3 ∨ op = 7#3 := by
    revert op; decide
  rw [decodeCmd, decodeCmd, cmdOpField_append, cmdOpField_append]
  rcases hop with rfl | rfl | rfl | rfl | rfl | rfl <;> rfl

theorem decodeCmd_wellFormed (word : BitVec 9) (msg : BitVec 440) : (decodeCmd word msg).WellFormed := by
  unfold decodeCmd
  split
  -- The opcodes of ENCODE and DIGEST.
  case h_2 | h_5 => exact decide_eq_true (keepBytes_lt _ msg)
  all_goals rfl

/-- With no length and no message the encoder gives the command word back, whatever the opcode. -/
theorem encode_decodeCmd_zero (op : BitVec 3) : encode (decodeCmd (0#6 ++ op) 0) = .cmd (0#6 ++ op) 0 := by
  revert op; decide

/-- What the encoder gives back of a command word: the opcode, and the used fields where there are any. -/
theorem encode_decodeCmd (len : BitVec 6) (op : BitVec 3) (msg : BitVec 440) :
    encode (decodeCmd (len ++ op) msg) =
      if op = 1#3 ∨ op = 4#3 then .cmd (len ++ op) (keepBytes len msg) else .cmd (0#6 ++ op) 0 := by
  split
  · next hused =>
    rcases hused with rfl | rfl
    · rw [decodeCmd_encode]; rfl
    · rw [decodeCmd_digest]; rfl
  · next hunused =>
    obtain ⟨hencode, hdigest⟩ := not_or.mp hunused
    rw [decodeCmd_of_unused hencode hdigest, encode_decodeCmd_zero]

/-! ## The step index -/

theorem decodeStep_wellFormed (j : BitVec 6) : (decodeStep j).WellFormed := by
  unfold decodeStep; split <;> rfl

theorem encode_decodeStep (j : BitVec 6) : encode (decodeStep j) = .step j := by
  revert j; decide

/-! ## The round trips -/

theorem decode_encode {i : Instr} (hi : i.WellFormed) : decode (encode i) = .ok i := by
  cases i with
  | encode len msg | digest len msg =>
    have hmsg : keepBytes len msg = msg := keepBytes_of_lt (of_decide_eq_true hi)
    simp only [encode, cmdWord, decode, decodeCmd_encode, decodeCmd_digest, hmsg]
  | stepF pos | stepG pos | stepH pos | stepI pos => exact congrArg Except.ok (decodeStep_of_encode rfl)
  | reset | transform | finalize | reserved5 | reserved6 | reserved7 | hwreset => rfl

/-- The one-number layout loses nothing (assumption 5): the command word fills bits 8:0 of the two bytes below the
message bus. -/
theorem encodedOfBits_encodedBits (e : Encoded) : encodedOfBits (encodedFormat e) (encodedBits e) = .ok e := by
  cases e with
  | cmd word msg =>
    have hword : word.toNat < 2 ^ 9 := word.isLt
    have hbits : (word.toNat + msg.toNat * 2 ^ 16) / 2 ^ 9 % 2 ^ 7 = 0 := by omega
    have hbus : (word.toNat + msg.toNat * 2 ^ 16) / 2 ^ 16 = msg.toNat := by omega
    have hlow : BitVec.ofNat 9 (word.toNat + msg.toNat * 2 ^ 16) = word := by
      apply BitVec.eq_of_toNat_eq
      rw [BitVec.toNat_ofNat]
      omega
    rw [encodedFormat, encodedBits, encodedOfBits, hbus, if_pos ⟨hbits, msg.isLt⟩, hlow, BitVec.ofNat_toNat,
      BitVec.setWidth_eq]
  | step j => simp [encodedFormat, encodedBits, encodedOfBits, j.isLt]
  | pin rst => simp [encodedFormat, encodedBits, encodedOfBits, rst.isLt]

/-- Settles O37: the layout gives the encoding back, and the decoder then the instruction. -/
theorem decodeOfEncodeIsTheInstruction : Obligations.DecodeOfEncodeIsTheInstruction := by
  intro i hi
  refine ⟨decode_encode hi, ?_⟩
  rw [decodeBits, encodedOfBits_encodedBits]
  exact decode_encode hi

/-- Settles O13: the decoder, ENCODE and DIGEST depend on the kept message, and that on the used bytes. -/
theorem messageBytesFromLenOnAreIgnored : Obligations.MessageBytesFromLenOnAreIgnored := by
  intro len msg msg' s hbytes
  have hkeep : keepBytes len msg = keepBytes len msg' := keepBytes_congr hbytes
  refine ⟨fun op => congrArg Except.ok (decodeCmd_congr hkeep op), ?_, ?_⟩
  · rw [← exec_encode_keepBytes, hkeep, exec_encode_keepBytes]
  · rw [← exec_digest_keepBytes, hkeep, exec_digest_keepBytes]

/-- Settles O38, by what the encoder gives back of a command word and of a step index. -/
theorem everyWordDecodes : Obligations.EveryWordDecodes := by
  refine ⟨fun len op msg => ⟨_, rfl, decodeCmd_wellFormed _ msg, ?_⟩,
    fun j => ⟨_, rfl, decodeStep_wellFormed j, encode_decodeStep j⟩⟩
  rw [encode_decodeCmd]
  split
  · exact ⟨len, _, rfl, fun _ => ⟨rfl, fun a ha => msgByte_keepBytes ha msg⟩⟩
  · next hunused => exact ⟨0#6, 0, rfl, fun hused => absurd hused hunused⟩

/-- Settles O36: each word is the encoder's for its instruction, but for 0x1FD, a reserved opcode with an ignored
length, and the pin low, which is no instruction. -/
theorem specWordsDecode : Obligations.SpecWordsDecode :=
  ⟨decode_encode (i := .reset) rfl, decode_encode (i := .encode 3 0x636261) rfl, decode_encode (i := .transform) rfl,
    decode_encode (i := .finalize) rfl, decode_encode (i := .digest 1 0x61) rfl, decode_encode (i := .encode 56 0) rfl,
    congrArg Except.ok (decodeCmd_of_unused (op := 5#3) (by decide) (by decide) 63#6 0),
    decode_encode (i := .stepF 5) rfl, decode_encode (i := .stepG 0) rfl, decode_encode (i := .stepH 8) rfl,
    decode_encode (i := .stepI 15) rfl, decode_encode (i := .hwreset) rfl, rfl⟩

/-- Settles O39: the first part by the unused fields of the command word, the second by the length fault. -/
theorem unusedFieldsAreIgnored : Obligations.UnusedFieldsAreIgnored := by
  refine ⟨fun op len len' msg msg' hencode hdigest => ?_, fun len msg s hlen => ?_, rfl, rfl, rfl⟩
  · rw [decode, decode, decodeCmd_of_unused hencode hdigest, decodeCmd_of_unused hencode hdigest len']
  · have hlong : tooLong len = true := tooLong_of_lt hlen
    exact ⟨_, _, (Effect.lengthFault (.inl rfl) hlong).exec_eq, rfl, (Effect.lengthFault (.inr rfl) hlong).exec_eq, rfl⟩

/-! ## The reserved opcodes -/

theorem decodeCmd_reserved {op : BitVec 3} (hop : 5 ≤ op.toNat) (len : BitVec 6) (msg : BitVec 440) :
    (decodeCmd (len ++ op) msg = .reserved5 ∨ decodeCmd (len ++ op) msg = .reserved6 ∨
      decodeCmd (len ++ op) msg = .reserved7) ∧
    (op.toNat = 5 → decodeCmd (len ++ op) msg = .reserved5) ∧
    (op.toNat = 6 → decodeCmd (len ++ op) msg = .reserved6) ∧
    (op.toNat = 7 → decodeCmd (len ++ op) msg = .reserved7) := by
  rw [decodeCmd_of_unused (by rintro rfl; simp at hop) (by rintro rfl; simp at hop)]
  revert op
  decide

section
variable (s : State) (f : CommandFault)

@[simp] theorem causeCode_some : causeCode (some f) = faultCode f := by rfl
@[simp] theorem State.enterFault_rspStatus : (s.enterFault f).rspStatus = some (faultCode f) := by rfl
@[simp] theorem State.enterFault_rspDigest : (s.enterFault f).rspDigest = none := by rfl
@[simp] theorem State.enterFault_rspHex : (s.enterFault f).rspHex = none := by rfl
@[simp] theorem State.enterFault_busy : (s.enterFault f).busy = false := by rfl

end

/-- Settles O27: the three words decode to the reserved instructions, whose effect is the opcode fault. -/
theorem reservedOpcodesRaiseIllegalCommand : Obligations.ReservedOpcodesRaiseIllegalCommand := by
  intro op len msg s hop
  obtain ⟨hi, h5, h6, h7⟩ := decodeCmd_reserved hop len msg
  refine ⟨_, rfl, by simpa using hi, h5, h6, h7, _, (Effect.opcodeFault hi).exec_eq, ?_⟩
  simp [faultCode]

end Sys2Proof.Machine
end

section
/-! The step tables: the rotate amounts and the index decoder (30_encoding.md, section 6). -/

namespace Sys2Proof.Machine

open Sys2Proof

theorem rotAmount_toNat (j : BitVec 6) : (rotAmount j).toNat = ruleRot j.toNat := by
  revert j; decide

theorem midx_toNat (j : BitVec 6) : (midx j).toNat = ruleMidx j.toNat := by
  revert j; decide

theorem rotAmount_range (j : BitVec 6) : 4 ≤ (rotAmount j).toNat ∧ (rotAmount j).toNat ≤ 23 := by
  revert j; decide

/-- The position at which quarter `q` reads buffer word `g`: R91's maps `i`, `5i + 1`, `3i + 5` and `7i` solved for `i`
modulo 16, where 13, 11 and 7 are the inverses of 5, 3 and 7. -/
def midxPosition (q : BitVec 2) (g : BitVec 4) : BitVec 4 :=
  match q.toNat with
  | 0 => g
  | 1 => 13#4 * (g - 1#4)
  | 2 => 11#4 * (g - 5#4)
  | _ => 7#4 * g

theorem midx_midxPosition (q : BitVec 2) (g : BitVec 4) : midx (q ++ midxPosition q g) = g := by
  revert q g; decide

theorem midxPosition_midx (q : BitVec 2) (i : BitVec 4) : midxPosition q (midx (q ++ i)) = i := by
  revert q i; decide

/-- Settles O19: the closed forms index by index, and each quarter's map by its inverse. -/
theorem stepTablesHaveTheirStatedForm : Obligations.StepTablesHaveTheirStatedForm := by
  refine ⟨fun j => ⟨rotAmount_toNat j, midx_toNat j, rotAmount_range j⟩, fun q g => ?_⟩
  refine ⟨midxPosition q g, midx_midxPosition q g, fun i' hi' => ?_⟩
  rw [← hi', midxPosition_midx]

end Sys2Proof.Machine
end

section
/-! What an edge makes of what it meets: the decoded instruction, and one response per command (30_encoding.md,
sections 2 and 5). -/

namespace Sys2Proof.Machine

open Sys2Proof

/-- In the command view an edge with a command presented to an idle engine performs the decoded command (R6, R82). -/
theorem step_command {s : State} {word : BitVec 9} {msg : BitVec 440} {rest : List Drive} (hflight : s.flight = none)
    (hview : s.view = .command) (hport : s.port = .cmd word msg :: rest) :
    step s = exec (decodeCmd word msg) (s.passEdge rest) := by
  rw [step, clockEdge_command hflight hport, runCommand, State.passEdge_view, hview]

/-- A command is answered, and BUSY is 0 with the answer (R82). -/
theorem Effect.responds {i : Instr} {s t : State} (h : Effect s i t) (hi : encodedFormat (Sys2Proof.encode i) = .cmd) :
    t.rspValid = true ∧ t.flight = none := by
  cases h with
  | microStep henc => rw [henc] at hi; cases hi
  | hwreset => cases hi
  | _ => simp [State.rspValid]

theorem State.accepts_of_presented {s : State} {word : BitVec 9} {msg : BitVec 440} {rest : List Drive}
    (hflight : s.flight = none) (hport : s.port = .cmd word msg :: rest) : s.accepts = true := by
  simp [State.accepts, State.presented, State.cmdReady, State.busy, State.rst, hflight, hport]

/-- Settles O43: the first edge performs the command, the second has nothing presented and takes the response away. -/
theorem everyCommandHasOneResponse : Obligations.EveryCommandHasOneResponse := by
  intro s word msg hflight hview hport
  obtain ⟨t, ht⟩ := exists_effect (decodeCmd word msg) (s.passEdge [])
  obtain ⟨hrsp, hdone⟩ := ht.responds (encodedFormat_decodeCmd word msg)
  have hempty : t.port = [] := ht.port_view_eq.1
  refine ⟨State.accepts_of_presented hflight hport, t, t.passEdge [], ?_, hrsp, ?_, ?_, rfl, rfl, rfl, rfl⟩
  · rw [step_command hflight hview hport, ht.exec_eq]
  · simp [State.busy, hdone]
  · rw [step, clockEdge_nothing hdone hempty]

/-- Settles O40, by the three kinds of edge that run an instruction. -/
theorem stepRunsTheDecodedInstruction : Obligations.StepRunsTheDecodedInstruction := by
  refine ⟨fun s rest hport => clockEdge_rst hport, ?_, ?_⟩
  · intro s word msg rest i hflight hview hport hdecode
    cases hdecode
    exact step_command hflight hview hport
  · intro s f i hflight hstepping hrst hdecode
    cases hdecode
    obtain ⟨f', hflight', hf⟩ := State.stepping_iff.mp hstepping
    obtain rfl : f = f' := Option.some.inj (hflight.symm.trans hflight')
    refine ⟨(s.passEdge (holdCommand s.port)).nextStep, exec_decodeStep _ _, ?_⟩
    rw [step, clockEdge_busy hflight (State.port_ne_rst hrst), busyEdge_stepping hf, State.passEdge_stepCounter]

end Sys2Proof.Machine
end

section
/-! HWRESET and RESET (40_reset_commands.md). -/

namespace Sys2Proof.Machine

open Sys2Proof

/-! ## What the reset state holds -/

@[simp] theorem Quad.iv_a : Quad.iv.a = 0x67452301#32 := by rfl
@[simp] theorem Quad.iv_b : Quad.iv.b = 0xEFCDAB89#32 := by rfl
@[simp] theorem Quad.iv_c : Quad.iv.c = 0x98BADCFE#32 := by rfl
@[simp] theorem Quad.iv_d : Quad.iv.d = 0x10325476#32 := by rfl

@[simp] theorem memReadByte_nil (a : Nat) : memReadByte [] a = 0 := by rfl

/-- Settles O2: the effect of HWRESET, field by field. -/
theorem hwresetWritesTheResetState : Obligations.HwresetWritesTheResetState := by
  refine ⟨rfl, fun s => ⟨s.hardReset, Effect.hwreset.exec_eq, ?_⟩⟩
  simp [State.busy]

/-- Settles O3: the edge performs HWRESET, which keeps only the rest of the port and the view. -/
theorem hwresetHasPriorityOverEverything : Obligations.HwresetHasPriorityOverEverything := by
  intro s rest hport
  rw [step, clockEdge_rst hport, Effect.hwreset.exec_eq, State.hardReset, State.passEdge_port, State.passEdge_view]

/-! ## RESET -/

theorem decodeCmd_reset (len : BitVec 6) (msg : BitVec 440) : decodeCmd (len ++ 0#3) msg = .reset := by
  rw [decodeCmd_of_unused (by decide) (by decide)]
  rfl

/-- Settles O4: the opcode alone decides the word, and the effect of RESET is read field by field. -/
theorem resetCommandRestoresTheConstants : Obligations.ResetCommandRestoresTheConstants := by
  refine ⟨fun len msg => ?_, fun s => ⟨s.restore.respond .ok, Effect.reset.exec_eq, ?_⟩⟩
  · rw [decode, decodeCmd_reset]
  · simp [State.busy]

/-- RESET leaves what HWRESET leaves, but for the response and for STEP, which it does not write (R112). -/
theorem State.restore_respond (s : State) (r : Response) :
    s.restore.respond r = (s.hardReset.respond r).setStep s.stepCounter := by rfl

/-- An idle engine has STEP at 0 already (R113). -/
theorem State.Idle.exec_reset {s : State} (hs : s.Idle) : exec .reset s = .next (s.hardReset.respond .ok) := by
  obtain ⟨-, hstep⟩ := hs
  rw [Effect.reset.exec_eq, State.restore_respond, hstep]
  rfl

/-- Settles O5: the state after the first RESET is idle again, and HWRESET sees only what RESET keeps. -/
theorem resetTwiceIsResetOnce : Obligations.ResetTwiceIsResetOnce := by
  intro s hs
  have hagain : (s.hardReset.respond .ok).Idle := ⟨rfl, rfl⟩
  exact ⟨_, hs.exec_reset, hagain.exec_reset, Effect.hwreset.exec_eq⟩

/-! ## Nothing survives a RESET -/

/-- The state under another host and in the other or the same view. -/
def State.driven (s : State) (port : List Drive) (view : View) : State := { s with port := port, view := view }

/-- No rule of `Effect` looks at what the host drives or at the view. -/
theorem Effect.driven {i : Instr} {s t : State} (h : Effect s i t) (port : List Drive) (view : View) :
    Effect (s.driven port view) i (t.driven port view) := by
  cases h with
  | reset => exact .reset
  | encode hlen => exact .encode hlen
  | transform => exact .transform
  | finalize => exact .finalize
  | digest hlen => exact .digest hlen
  | lengthFault hi hlen => exact .lengthFault hi hlen
  | opcodeFault hi => exact .opcodeFault hi
  | microStep hi => exact .microStep hi
  | hwreset => exact .hwreset

/-- Settles O6: two idle engines differ after a RESET only in what the host drives and in the view, which DIGEST
does not look at. -/
theorem nothingSurvivesAReset : Obligations.NothingSurvivesAReset := by
  intro s s' t t' len msg hs hs' ht ht'
  cases hs.exec_reset.symm.trans ht
  cases hs'.exec_reset.symm.trans ht'
  obtain ⟨u, hu⟩ := exists_effect (.digest len msg) (s.hardReset.respond .ok)
  exact ⟨u, u.driven s'.port s'.view, hu.exec_eq, (hu.driven s'.port s'.view).exec_eq, rfl, rfl, rfl, rfl⟩

end Sys2Proof.Machine
end

section
/-! ENCODE: the words it writes, its frame, its fault, and two ENCODEs with no RESET between (41_encode.md,
sections 1 to 3). -/

namespace Sys2Proof.Machine

open Sys2Proof

/-! ## One ENCODE on the buffer -/

/-- Byte `k` of the word `M[i]` (R14). -/
theorem byteOfWord_readWord_of_lt (m : Memory) (i : Nat) {k : Nat} (hk : k < 4) :
    byteOfWord (readWord m i) k = memReadByte m (4 * i + k) := by
  rw [← byteOfWord_readWord, show (4 * i + k) / 4 = i by omega, show (4 * i + k) % 4 = k by omega]

/-- The bytes of a packed word are the padded message's (R120). -/
theorem byteOfWord_encodeBuffer_packed {len : BitVec 6} (hlen : len.toNat ≤ 55) {i k : Nat} (hi : i < encodedWords len)
    (hk : k < 4) (msg : BitVec 440) (m : Memory) :
    byteOfWord (readWord (encodeBuffer len msg m) i) k = padByte len msg (4 * i + k) := by
  have hword : i ≤ len.toNat / 4 := (lt_encodedWords_iff len i).mp hi
  rw [byteOfWord_readWord_of_lt _ _ hk, memReadByte_encodeBuffer_packed hlen (by omega)]

/-- ENCODE leaves every byte outside the packed words, word 14 and word 15 (R122). -/
theorem memReadByte_encodeBuffer_frame {len : BitVec 6} {a : Nat} (ha : encodedWords len ≤ a / 4) (h14 : a / 4 ≠ 14)
    (h15 : a / 4 ≠ 15) (msg : BitVec 440) (m : Memory) :
    memReadByte (encodeBuffer len msg m) a = memReadByte m a := by
  rw [memReadByte_encodeBuffer, if_neg h15, if_neg h14, if_neg ha.not_gt]

/-- The buffer after an ENCODE depends on the one before only in the bytes that the ENCODE leaves. -/
theorem memReadByte_encodeBuffer_congr {len : BitVec 6} {m m' : Memory}
    (h : ∀ a, encodedWords len ≤ a / 4 → a / 4 ≠ 14 → a / 4 ≠ 15 → memReadByte m a = memReadByte m' a)
    (msg : BitVec 440) (a : Nat) :
    memReadByte (encodeBuffer len msg m) a = memReadByte (encodeBuffer len msg m') a := by
  rw [memReadByte_encodeBuffer, memReadByte_encodeBuffer]
  split_ifs with h15 h14 hpacked
  · rfl
  · rfl
  · rfl
  · exact h a (not_lt.mp hpacked) h14 h15

/-! ## The command -/

/-- A canonical message is the instruction's operand as it stands (R84, R120). -/
theorem decode_encode_word {len : BitVec 6} {msg : BitVec 440} (h : msg.toNat < 2 ^ (8 * len.toNat)) :
    decode (.cmd (len ++ 1#3) msg) = .ok (.encode len msg) := by
  rw [decode, decodeCmd_encode, keepBytes_of_lt h]

theorem exec_encode_of_le {len : BitVec 6} (hlen : len.toNat ≤ 55) (msg : BitVec 440) (s : State) :
    exec (.encode len msg) s = .next ((s.setMem (encodeBuffer len msg s.mem)).respond .ok) :=
  (Effect.encode (tooLong_of_le hlen)).exec_eq

theorem exec_encode_of_lt {len : BitVec 6} (hlen : 55 < len.toNat) (msg : BitVec 440) (s : State) :
    exec (.encode len msg) s = .next (s.enterFault .msgTooLong) :=
  (Effect.lengthFault (.inl rfl) (tooLong_of_lt hlen)).exec_eq

/-- Whether it faults or not, ENCODE answers with BUSY at 0 (R82). -/
theorem Effect.encode_busy {len : BitVec 6} {msg : BitVec 440} {s t : State} (h : Effect s (.encode len msg) t) :
    t.busy = false := by
  cases h with
  | encode | lengthFault => rfl
  | opcodeFault hi => simp at hi
  | microStep hi => cases hi

/-- Settles O7: the frame by the effect of ENCODE; then the fault above 55 bytes, and up to 55 the packed words, the
bit length and the bytes that are left. -/
theorem encodeWritesThePaddedMessage : Obligations.EncodeWritesThePaddedMessage := by
  refine ⟨fun len msg => decode_encode_word, fun len msg s => ?_⟩
  obtain ⟨t, ht⟩ := exists_effect (.encode len msg) s
  obtain ⟨hport, hview⟩ := ht.port_view_eq
  refine ⟨t, ht.exec_eq, ht.x_eq (.inl ⟨_, _, rfl⟩), ht.stepCounter_eq (.inl ⟨_, _, rfl⟩), ht.encode_busy, hport, hview,
    fun hlong => ?_, fun hlen => ?_⟩
  · cases (exec_encode_of_lt hlong msg s).symm.trans ht.exec_eq
    simp
  · cases (exec_encode_of_le hlen msg s).symm.trans ht.exec_eq
    refine ⟨rfl, rfl, rfl, fun i hi k hk => ?_, ?_, ?_, fun a ha h14 h15 => ?_⟩
    · exact byteOfWord_encodeBuffer_packed hlen hi hk msg s.mem
    · exact (readWord_encodeBuffer len msg s.mem 14).trans (bitLength_low len)
    · exact (readWord_encodeBuffer len msg s.mem 15).trans (bitLength_high len)
    · exact memReadByte_encodeBuffer_frame ha h14 h15 msg s.mem

/-- Settles O8, by the fault entry that ENCODE makes above 55 bytes. -/
theorem encodeTooLongWritesNothing : Obligations.EncodeTooLongWritesNothing := by
  intro len msg s hlen
  refine ⟨_, exec_encode_of_lt hlen msg s, ?_⟩
  simp [faultCode]

/-! ## Two ENCODEs with no RESET between -/

/-- Settles O11: a word below 14 that the second ENCODE does not pack is in its frame, and the first packed it. -/
theorem staleWordsSurviveAShorterEncode : Obligations.StaleWordsSurviveAShorterEncode := by
  intro len1 len2 msg1 msg2 s hlen1 hlen2
  refine ⟨_, _, exec_encode_of_le hlen1 msg1 s, exec_encode_of_le hlen2 msg2 _, fun i hstale hpacked k hk => ?_⟩
  have hword : (4 * i + k) / 4 = i := by omega
  calc byteOfWord (readWord (encodeBuffer len2 msg2 (encodeBuffer len1 msg1 s.mem)) i) k
      = memReadByte (encodeBuffer len2 msg2 (encodeBuffer len1 msg1 s.mem)) (4 * i + k) :=
        byteOfWord_readWord_of_lt _ _ hk
    _ = memReadByte (encodeBuffer len1 msg1 s.mem) (4 * i + k) :=
        memReadByte_encodeBuffer_frame (hstale.trans_eq hword.symm) (by omega) (by omega) msg2 _
    _ = byteOfWord (readWord (encodeBuffer len1 msg1 s.mem) i) k := (byteOfWord_readWord_of_lt _ _ hk).symm
    _ = padByte len1 msg1 (4 * i + k) := byteOfWord_encodeBuffer_packed hlen1 hpacked hk msg1 s.mem

/-- Settles O12: whatever the second ENCODE leaves, the first, which packs no more words, has left too. -/
theorem longerEncodeHidesTheEarlierOne : Obligations.LongerEncodeHidesTheEarlierOne := by
  intro len1 len2 msg1 msg2 s hlen1 hlen2 hwords
  refine ⟨_, _, _, exec_encode_of_le hlen1 msg1 s, exec_encode_of_le hlen2 msg2 _, exec_encode_of_le hlen2 msg2 s, ?_⟩
  exact memReadByte_encodeBuffer_congr
    (fun a ha h14 h15 => memReadByte_encodeBuffer_frame (hwords.trans ha) h14 h15 msg1 s.mem) msg2

end Sys2Proof.Machine
end

section
/-! The datapath of a step: the rotation and the round functions (42_transform.md, section 1). -/

namespace Sys2Proof.Machine

open Sys2Proof

/-! ## The rotation -/

/-- The spec's shifts are Lean's rotation at the amounts of R141. -/
theorem rotl32_eq_rotateLeft (a : Word) {n : Nat} (hn : n < 32) : rotl32 a n = a.rotateLeft n := by
  rw [rotl32, BitVec.rotateLeft_def, Nat.mod_eq_of_lt hn]

/-- Settles O18: a bit below `n` comes from the top of the word, every other from `n` places below. -/
theorem rotationMovesEveryBit : Obligations.RotationMovesEveryBit := by
  intro a n i _ hn hi
  rw [rotl32_eq_rotateLeft a hn, BitVec.getLsbD_rotateLeft, Nat.mod_eq_of_lt hn]
  by_cases hwrap : i < n
  · simp [hwrap, show (i + 32 - n) % 32 = 32 - n + i by omega]
  · simp [hwrap, hi, show (i + 32 - n) % 32 = i - n by omega]

/-- A rotation loses no bit: bit `k` of the operand stands at `k + n` modulo 32. -/
theorem rotl32_injective {n : Nat} (hpos : 0 < n) (hn : n < 32) : Function.Injective (rotl32 · n) := by
  intro a b hab
  apply BitVec.eq_of_getLsbD_eq
  intro k hk
  have hbit (c : Word) : (rotl32 c n).getLsbD ((k + n) % 32) = c.getLsbD k := by
    rw [rotationMovesEveryBit c n _ hpos hn (Nat.mod_lt _ (by decide)),
      show ((k + n) % 32 + 32 - n) % 32 = k by omega]
  rw [← hbit a, ← hbit b]
  exact congrArg (BitVec.getLsbD · ((k + n) % 32)) hab

/-! ## The round functions -/

section
variable (b c d : Word)

theorem roundG_eq_roundF : roundG b c d = roundF d b c := by
  rw [roundG, roundF, BitVec.and_comm b d, BitVec.and_comm c (~~~d)]

variable {k : Nat} (hk : k < 32)
include hk

theorem getLsbD_roundF : (roundF b c d).getLsbD k = if b.getLsbD k then c.getLsbD k else d.getLsbD k := by
  simp only [roundF, BitVec.getLsbD_or, BitVec.getLsbD_and, BitVec.getLsbD_not, hk, decide_true, Bool.true_and]
  cases b.getLsbD k <;> simp

theorem getLsbD_roundI : (roundI b c d).getLsbD k = xor (c.getLsbD k) (b.getLsbD k || !d.getLsbD k) := by
  simp [roundI, hk]

end

/-- Settles O17: F by the bit of `b` that selects, G as F of the other order, H and I bit by bit. -/
theorem roundFunctionsBitByBit : Obligations.RoundFunctionsBitByBit := by
  intro b c d
  refine ⟨fun k hk => ⟨getLsbD_roundF b c d hk, ?_, ?_, getLsbD_roundI b c d hk⟩, roundG_eq_roundF b c d⟩
  · rw [roundG_eq_roundF, getLsbD_roundF d b c hk]
  · simp [roundH]

end Sys2Proof.Machine
end

section
/-! The step micro-operations and TRANSFORM (42_transform.md, sections 3 and 4). -/

namespace Sys2Proof.Machine

open Sys2Proof

/-! ## One step -/

theorem quarter_toNat (j : BitVec 6) : (quarter j).toNat = j.toNat / 16 := by
  revert j; decide

theorem roundFn_eq_ruleFn (q : BitVec 2) : roundFn q = ruleFn q.toNat := by
  have hq : q = 0#2 ∨ q = 1#2 ∨ q = 2#2 ∨ q = 3#2 := by revert q; decide
  rcases hq with rfl | rfl | rfl | rfl <;> rfl

/-- The datapath of step `j` does what R155 states, by the closed forms of its table entries. -/
theorem stepRel_stepQuad (j : BitVec 6) (m : Memory) (x : Quad) :
    StepRel (readWord m) j.toNat x (stepQuad (roundFn (quarter j)) j m x) := by
  have hrot : (rotAmount j).toNat < 32 := (rotAmount j).isLt
  refine ⟨rfl, ?_, rfl, rfl⟩
  rw [← quarter_toNat, ← roundFn_eq_ruleFn, ← midx_toNat, ← rotAmount_toNat, ← rotl32_eq_rotateLeft _ hrot]
  rfl

/-- A step can be undone (R165). -/
theorem stepQuad_injective (fn : Word → Word → Word → Word) (j : BitVec 6) (m : Memory) :
    Function.Injective (stepQuad fn j m) := by
  rintro ⟨a, b, c, d⟩ ⟨a', b', c', d'⟩ h
  obtain ⟨hd, hb, hc, hcd⟩ := Quad.mk.inj h
  dsimp only at hd hb hc hcd
  subst hd hc hcd
  obtain ⟨hlo, hhi⟩ := rotAmount_range j
  have hsum : a + fn b c d + _ + _ = a' + fn b c d + _ + _ :=
    rotl32_injective (by omega) (by omega) ((BitVec.add_left_inj _).mp hb)
  simpa using hsum

/-- A step index, by its quarter and its position (R88). -/
theorem toNat_stepIndex (q : BitVec 2) (i : BitVec 4) : (stepIndex q i).toNat = 16 * q.toNat + i.toNat := by
  revert q i; decide

/-- The micro-operation of quarter `q` is the one that the sequencer fetches there (R88, R156 to R159). -/
theorem stepInstrs_getElem?_eq_decodeStep {q : Nat} (hq : q < 4) (i : BitVec 4) :
    [Instr.stepF i, Instr.stepG i, Instr.stepH i, Instr.stepI i][q]? =
      some (decodeStep (stepIndex (BitVec.ofNat 2 q) i)) := by
  rw [decodeStep, stepIndex_position, ← quarter, stepIndex_quarter]
  have hcases : q = 0 ∨ q = 1 ∨ q = 2 ∨ q = 3 := by omega
  rcases hcases with rfl | rfl | rfl | rfl <;> rfl

/-- Settles O14: the four micro-operations are what the sequencer fetches at their index, which performs that step. -/
theorem stepsDoTheirRound : Obligations.StepsDoTheirRound := by
  intro i s q hq
  have hj : (stepIndex (BitVec.ofNat 2 q) i).toNat = 16 * q + i.toNat := by
    rw [toNat_stepIndex, BitVec.toNat_ofNat, Nat.mod_eq_of_lt hq]
  refine ⟨_, stepInstrs_getElem?_eq_decodeStep hq i, rfl, _, exec_decodeStep _ s, ?_, ?_, rfl, rfl, rfl, rfl, rfl, rfl,
    rfl⟩
  · rw [← hj]
    exact stepRel_stepQuad _ s.mem s.x
  · rw [State.performStep_stepCounter]
    apply BitVec.eq_of_toNat_eq
    simp [hj]

/-! ## The 64 steps -/

theorem transformRel_transformQuad (m : Memory) (x : Quad) : TransformRel (readWord m) x (transformQuad m x) := by
  refine ⟨runSteps m x, rfl, fun j hj => ?_, (transformQuad_eq_succ m x 63 rfl).symm⟩
  have hstep := stepRel_stepQuad (BitVec.ofNat 6 j) m (runSteps m x j)
  rwa [BitVec.toNat_ofNat, Nat.mod_eq_of_lt hj] at hstep

theorem runSteps_injective (m : Memory) (n : Nat) : Function.Injective (runSteps m · n) := by
  induction n with
  | zero => exact fun _ _ h => h
  | succ n ih => exact fun _ _ h => ih (stepQuad_injective _ _ m h)

/-- Settles O16: no step loses a register, and the transform is 64 of them. -/
theorem transformIsInjective : Obligations.TransformIsInjective :=
  fun m _ _ => ⟨fun j h => stepQuad_injective _ j m h, fun h => runSteps_injective m Config.nStep h⟩

theorem decodeCmd_transform (len : BitVec 6) (msg : BitVec 440) : decodeCmd (len ++ 2#3) msg = .transform := by
  rw [decodeCmd_of_unused (by decide) (by decide)]
  rfl

/-- Settles O15: the opcode alone decides the word, and the effect of TRANSFORM is the 64 steps over the buffer. -/
theorem transformRunsTheSixtyFourSteps : Obligations.TransformRunsTheSixtyFourSteps := by
  refine ⟨fun len msg => ?_, fun s => ⟨s.performTransform.respond .ok, Effect.transform.exec_eq, ?_⟩⟩
  · rw [decode, decodeCmd_transform]
  · have hrel : TransformRel s.word s.x (transformQuad s.mem s.x) := transformRel_transformQuad s.mem s.x
    simp [State.busy, hrel]

end Sys2Proof.Machine
end

section
/-! The agreement of the command view and the sequencer view (42_transform.md, section 4; 00_scope.md). -/

namespace Sys2Proof.Machine

open Sys2Proof

/-! ## Runs and held commands -/

theorem run_succ_of_step {M : Host.Core} {s t : M.State} (h : M.step s = .next t) (k : Nat) :
    M.run (k + 1) s = M.run k t := by
  rw [Host.Core.run, h]

theorem run_one_of_step {M : Host.Core} {s t : M.State} (h : M.step s = .next t) : M.run 1 s = .next t :=
  run_succ_of_step h 0

theorem holdCommand_of_heldOnly {port : List Drive} (h : heldOnly port = true) : holdCommand port = port := by
  unfold heldOnly at h
  split at h
  · cases h
  · cases h
  · rfl
  · rfl

theorem ne_rst_of_heldOnly {port : List Drive} (h : heldOnly port = true) (rest : List Drive) :
    port ≠ .rst :: rest := by
  rintro rfl
  cases h

/-- With a command in flight and no response present, an edge at which the host holds what it presents is the busy
edge of the state as it stands (R82, R247). -/
theorem step_of_held {s : State} {f : Flight} (hflight : s.flight = some f) (hrsp : s.rsp = none)
    (hheld : heldOnly s.port = true) : step s = busyEdge f s := by
  have hpass : s.passEdge s.port = s := by
    rw [State.passEdge, ← hrsp]
  rw [step, clockEdge_busy hflight (ne_rst_of_heldOnly hheld), holdCommand_of_heldOnly hheld, hpass]

/-! ## A command without steps -/

theorem State.deferResponse_of_rsp {s : State} {r : Response} (hrsp : s.rsp = some r) :
    s.deferResponse = { s with rsp := none, flight := some (.respond r) } := by
  rw [State.deferResponse, hrsp]

/-- The response held back comes at the next edge, with BUSY back at 0 (R82; assumption 4). -/
theorem step_deferResponse {s : State} {r : Response} (hrsp : s.rsp = some r) (hflight : s.flight = none)
    (hheld : heldOnly s.port = true) : step s.deferResponse = .next s := by
  have hbusy := step_of_held (s := { s with rsp := none, flight := some (.respond r) }) rfl rfl hheld
  rw [State.deferResponse_of_rsp hrsp, hbusy, busyEdge, State.complete, State.respond, ← hrsp, ← hflight]

/-- How the sequencer view accepts a command, with the edges it takes: the steps begin, or the command is performed and
its response held back. -/
theorem acceptCommand_begins_or_defers {i : Instr} (hi : encodedFormat (encode i) = .cmd) (s : State) :
    (i = .transform ∨ ∃ len msg, i = .digest len msg ∧ tooLong len = false) ∨
    edgesOf i = 2 ∧ acceptCommand i s = mapNext State.deferResponse (exec i s) := by
  cases i with
  | transform => exact .inl (.inl rfl)
  | digest len msg =>
    cases hlen : tooLong len with
    | false => exact .inl (.inr ⟨len, msg, rfl, hlen⟩)
    | true => exact .inr (by simp [edgesOf, acceptCommand, hlen])
  | reset | encode | finalize | reserved5 | reserved6 | reserved7 => exact .inr ⟨rfl, rfl⟩
  | stepF | stepG | stepH | stepI | hwreset => cases hi

/-! ## The 64 steps -/

/-- The state after the first `n` steps. -/
def State.afterSteps (s : State) (n : Nat) : State :=
  (s.setX (runSteps s.mem s.x n)).setStep (BitVec.ofNat 6 n)

theorem State.afterSteps_zero {s : State} (h : s.stepCounter = 0) : s.afterSteps 0 = s := by
  change { s with stepCounter := 0 } = s
  rw [← h]

theorem State.nextStep_afterSteps (s : State) (n : Nat) : (s.afterSteps n).nextStep = s.afterSteps (n + 1) := by
  have hnext : BitVec.ofNat 6 n + 1 = BitVec.ofNat 6 (n + 1) := (BitVec.ofNat_add n 1).symm
  exact congrArg (s.setX (runSteps s.mem s.x (n + 1))).setStep hnext

/-- After all 64 steps STEP is back at 0 (R24, R163). Stated over `n`, so that no steps are unrolled. -/
theorem State.afterSteps_nStep (s : State) {n : Nat} (hn : n = Config.nStep) : s.afterSteps n = s.performTransform := by
  have hwrap : BitVec.ofNat 6 n = 0 := by rw [hn]; rfl
  rw [State.afterSteps, State.performTransform, hwrap, transformQuad, hn]

section
variable {s : State} {f : Flight} (hflight : s.flight = some f) (hf : f = .transform ∨ f = .digest)
  (hheld : heldOnly s.port = true) (hrsp : s.rsp = none)
include hflight hf hheld hrsp

/-- One edge while the steps run: the next step, and with the last of the 64 the response (R24, R26). -/
theorem step_afterSteps {n : Nat} (hn : n < 64) :
    step (s.afterSteps n) = .next (if n = 63 then (s.afterSteps (n + 1)).complete f else s.afterSteps (n + 1)) := by
  have hlast : BitVec.ofNat 6 n = 63#6 ↔ n = 63 := by
    rw [← BitVec.toNat_inj, BitVec.toNat_ofNat, Nat.mod_eq_of_lt hn]
    rfl
  have hcounter : (s.afterSteps n).stepCounter = BitVec.ofNat 6 n := by rfl
  rw [step_of_held (s := s.afterSteps n) hflight hrsp hheld, busyEdge_stepping hf, State.nextStep_afterSteps, hcounter]
  simp only [hlast]

/-- The edges that are left when `n` steps are done, of which the last ends the command. -/
theorem run_afterSteps (k n : Nat) (hk : n + k = 63) :
    Host.Core.run core (k + 1) (s.afterSteps n) = .next (s.performTransform.complete f) := by
  induction k generalizing n with
  | zero =>
    have hstep := step_afterSteps hflight hf hheld hrsp (show n < 64 by omega)
    rw [if_pos (by omega), State.afterSteps_nStep s (show n + 1 = 64 by omega)] at hstep
    exact run_one_of_step (M := core) hstep
  | succ k ih =>
    have hstep := step_afterSteps hflight hf hheld hrsp (show n < 64 by omega)
    rw [if_neg (by omega)] at hstep
    rw [run_succ_of_step (M := core) hstep]
    exact ih (n + 1) (by omega)

end

/-- The steps begun in the state `s` end, 64 edges later, in the whole transform of `s` and the response. -/
theorem run_beginSteps {s : State} {f : Flight} (hf : f = .transform ∨ f = .digest) (hheld : heldOnly s.port = true)
    (hrsp : s.rsp = none) :
    Host.Core.run core 64 (s.beginSteps f) = .next (s.performTransform.complete f) := by
  have hrun := run_afterSteps (s := s.beginSteps f) rfl hf hheld hrsp 63 0 rfl
  rw [State.afterSteps_zero rfl] at hrun
  have hcomplete : (s.beginSteps f).performTransform.complete f = s.performTransform.complete f := by
    rcases hf with rfl | rfl <;> rfl
  rw [hrun, hcomplete]

/-! ## The agreement -/

/-- An instruction has one effect. -/
theorem Effect.unique {i : Instr} {s t u : State} (ht : Effect s i t) (hu : Effect s i u) : t = u :=
  Host.Outcome.next.inj (ht.exec_eq.symm.trans hu.exec_eq)

/-- A command performed at once and the command accepted in the sequencer view end in the same state, after the edges
that the command takes. -/
theorem Effect.run_acceptCommand {i : Instr} {s u : State} (h : Effect s i u)
    (hi : encodedFormat (Sys2Proof.encode i) = .cmd) (hheld : heldOnly s.port = true) (hrsp : s.rsp = none) :
    ∃ t k, acceptCommand i s = .next t ∧ edgesOf i = k + 1 ∧ Host.Core.run core k t = .next u := by
  rcases acceptCommand_begins_or_defers hi s with (rfl | ⟨len, msg, rfl, hlen⟩) | ⟨hedges, haccept⟩
  · obtain rfl := h.unique .transform
    exact ⟨_, 64, rfl, rfl, run_beginSteps (.inl rfl) hheld hrsp⟩
  · obtain rfl := h.unique (.digest hlen)
    refine ⟨(s.setMem (encodeBuffer len msg s.mem)).beginSteps .digest, 64, by simp [acceptCommand, hlen],
      by simp [edgesOf, hlen, Config.nStep], run_beginSteps (.inr rfl) hheld hrsp⟩
  · obtain ⟨hvalid, hflight⟩ := h.responds hi
    obtain ⟨r, hr⟩ := Option.isSome_iff_exists.mp hvalid
    have hport : u.port = s.port := h.port_view_eq.1
    refine ⟨u.deferResponse, 1, by rw [haccept, h.exec_eq, mapNext], hedges, ?_⟩
    exact run_one_of_step (M := core) (step_deferResponse hr hflight (hport ▸ hheld))

/-- Settles O47: the first edge accepts the command, the others bring it to where performing it at once leads, and
no effect looks at the view. -/
theorem theTwoViewsAgree : Obligations.TheTwoViewsAgree := by
  intro s word msg rest hflight hview hport hheld
  obtain ⟨u, hu⟩ := exists_effect (decodeCmd word msg) (s.passEdge rest)
  obtain ⟨huport, huview⟩ := hu.port_view_eq
  refine ⟨u.driven rest .command, ?_, ?_⟩
  · rw [step_command (s := { s with view := .command }) hflight rfl hport]
    exact (hu.driven rest .command).exec_eq
  · obtain ⟨t, k, haccept, hedges, hrun⟩ := hu.run_acceptCommand (encodedFormat_decodeCmd word msg) hheld rfl
    have hfirst : step s = .next t := by
      rw [step, clockEdge_command hflight hport, runCommand, State.passEdge_view, hview, haccept]
    have hstate : { u.driven rest .command with view := .sequencer } = u := by
      rw [State.passEdge_port] at huport
      rw [State.passEdge_view, hview] at huview
      rw [State.driven, ← huport, ← huview]
    rw [hedges, run_succ_of_step (M := core) hfirst, hrun, hstate]

end Sys2Proof.Machine
end

section
/-! The digest on the response ports: its bytes, its words and its string (30_encoding.md, section 4;
43_finalize_digest.md, section 1). -/

namespace Sys2Proof.Machine

open Sys2Proof

/-! ## Fields of a bus -/

/-- A field of a field is a field of the whole. -/
theorem extractLsb'_extractLsb' {w : Nat} (x : BitVec w) {start len start' len' : Nat} (h : start' + len' ≤ len) :
    (x.extractLsb' start len).extractLsb' start' len' = x.extractLsb' (start + start') len' := by
  apply BitVec.eq_of_getLsbD_eq
  intro i hi
  have hlen : start' + i < len := by omega
  simp only [BitVec.getLsbD_extractLsb', hi, hlen, decide_true, Bool.true_and, Nat.add_assoc]

/-- Two values of `rsp_digest` with the same 16 bytes are the same. -/
theorem digest_ext {x y : BitVec 128} (h : ∀ b < 16, x.extractLsb' (8 * b) 8 = y.extractLsb' (8 * b) 8) : x = y := by
  apply BitVec.eq_of_getLsbD_eq
  intro i hi
  have hbit := congrArg (BitVec.getLsbD · (i % 8)) (h (i / 8) (by omega))
  have hmod : i % 8 < 8 := Nat.mod_lt i (by decide)
  simpa [hmod, Nat.div_add_mod] using hbit

/-- Byte `4i + k` of four joined words is byte `k` of word `i`, the first word in the low bits (R53, R86). -/
theorem extractLsb'_append_words (x : Quad) (i : Fin 4) {k : Nat} (hk : k < 4) :
    (x.d ++ x.c ++ x.b ++ x.a).extractLsb' (8 * (4 * i.val + k)) 8 = (x.get i).extractLsb' (8 * k) 8 := by
  match i with
  | 0 | 1 | 2 | 3 =>
    simp (disch := omega) only [BitVec.extractLsb'_append_eq_of_le, BitVec.extractLsb'_append_eq_of_add_le]
    congr 1
    omega

/-! ## The digits -/

theorem hexDigit_eq_ruleCode (n : BitVec 4) : hexDigit n = ruleCode n := by
  revert n; decide

/-- The codes of `0` to `9` and of `A` to `F` (R87). -/
theorem ruleCode_range (n : BitVec 4) :
    (0x30 ≤ (ruleCode n).toNat ∧ (ruleCode n).toNat ≤ 0x39) ∨
    (0x41 ≤ (ruleCode n).toNat ∧ (ruleCode n).toNat ≤ 0x46) := by
  revert n; decide

/-- Byte `b` of a list makes the characters `2b` and `2b + 1`, the high nibble first (R180). -/
theorem getD_flatMap_byteDigits (bs : List Byte) {b : Nat} (hb : b < bs.length) :
    (bs.flatMap byteDigits).getD (2 * b) 0 = ruleCode ((bs.getD b 0).extractLsb' 4 4) ∧
    (bs.flatMap byteDigits).getD (2 * b + 1) 0 = ruleCode ((bs.getD b 0).extractLsb' 0 4) := by
  induction bs generalizing b with
  | nil => cases hb
  | cons v bs ih =>
    cases b with
    | zero => exact ⟨hexDigit_eq_ruleCode _, hexDigit_eq_ruleCode _⟩
    | succ b => exact ih (Nat.lt_of_succ_lt_succ hb)

/-! ## The rendering -/

/-- FINALIZE adds IV word by word (R180, R181). -/
theorem get_addIv (x : Quad) (i : Fin 4) : (addIv x).get i = x.get i + ruleIv i.val := by
  match i with
  | 0 | 1 | 2 | 3 => rfl

theorem length_digestBytes (x : Quad) : (digestBytes x).length = 16 := by rfl

/-- Digest byte `4i + k` is byte `k` of the sum `i` (R180). -/
theorem getD_digestBytes (x : Quad) (i : Fin 4) {k : Nat} (hk : k < 4) :
    (digestBytes x).getD (4 * i.val + k) 0 = byteOfWord ((addIv x).get i) k := by
  have hcases : k = 0 ∨ k = 1 ∨ k = 2 ∨ k = 3 := by omega
  match i with
  | 0 | 1 | 2 | 3 => rcases hcases with rfl | rfl | rfl | rfl <;> rfl

/-- What FINALIZE answers is the rendering of the registers as the rules state it. -/
theorem digestRel_packBytes (x : Quad) :
    DigestRel x (packBytes 128 (digestBytes x)) (packBytes 256 (digestChars x)) := by
  refine ⟨fun i k hk => ?_, fun b hb => ?_⟩
  · rw [packBytes_byte 128 _ _ (by omega), getD_digestBytes x i hk, get_addIv]
    rfl
  · obtain ⟨hhigh, hlow⟩ := getD_flatMap_byteDigits (digestBytes x) (b := b) (by rw [length_digestBytes]; exact hb)
    have hbyte : (digestBytes x).getD b 0 = (packBytes 128 (digestBytes x)).extractLsb' (8 * b) 8 :=
      (packBytes_byte 128 _ b (by omega)).symm
    rw [hbyte, extractLsb'_extractLsb' _ (by omega)] at hhigh hlow
    exact ⟨(packBytes_byte 256 _ _ (by omega)).trans hhigh, (packBytes_byte 256 _ _ (by omega)).trans hlow⟩

section
variable {x : Quad} {digest : BitVec 128} {hex : BitVec 256} (h : DigestRel x digest hex)
include h

/-- `rsp_digest` is the four sums, the first in the low bits (R86). -/
theorem DigestRel.digest_eq : digest = (addIv x).d ++ (addIv x).c ++ (addIv x).b ++ (addIv x).a := by
  apply digest_ext
  intro b hb
  obtain ⟨hbytes, -⟩ := h
  have hbyte := hbytes ⟨b / 4, by omega⟩ (b % 4) (by omega)
  rw [← get_addIv, ← extractLsb'_append_words (addIv x) ⟨b / 4, by omega⟩ (by omega)] at hbyte
  simpa only [Nat.div_add_mod] using hbyte

/-- Each of the 32 characters is the code of a nibble (R87). -/
theorem DigestRel.exists_nibble {c : Nat} (hc : c < 32) : ∃ n, hex.extractLsb' (8 * c) 8 = ruleCode n := by
  obtain ⟨-, hchars⟩ := h
  obtain ⟨hhigh, hlow⟩ := hchars (c / 2) (by omega)
  rcases Nat.mod_two_eq_zero_or_one c with hmod | hmod
  · exact ⟨_, by rwa [show 2 * (c / 2) = c by omega] at hhigh⟩
  · exact ⟨_, by rwa [show 2 * (c / 2) + 1 = c by omega] at hlow⟩

end

end Sys2Proof.Machine
end

section
/-! FINALIZE and DIGEST (43_finalize_digest.md). -/

namespace Sys2Proof.Machine

open Sys2Proof

/-! ## FINALIZE -/

theorem decodeCmd_finalize (len : BitVec 6) (msg : BitVec 440) : decodeCmd (len ++ 3#3) msg = .finalize := by
  rw [decodeCmd_of_unused (by decide) (by decide)]
  rfl

/-- Settles O20: the opcode alone decides the word, the response is the rendering that the rules state, and FINALIZE
writes nothing else. -/
theorem finalizeRendersTheDigest : Obligations.FinalizeRendersTheDigest := by
  refine ⟨fun len msg => ?_, fun s => ⟨s.respond (digestResponse s.x), _, _, Effect.finalize.exec_eq, rfl, ?_⟩⟩
  · rw [decode, decodeCmd_finalize]
  · have hrel : DigestRel s.x _ _ := digestRel_packBytes s.x
    exact ⟨hrel, hrel.digest_eq, rfl, rfl, rfl, rfl, rfl, rfl, rfl, rfl⟩

/-- Settles O22: the response depends on the registers alone, which FINALIZE leaves. -/
theorem finalizeTwiceAnswersTheSame : Obligations.FinalizeTwiceAnswersTheSame :=
  fun s => ⟨s.respond (digestResponse s.x), Effect.finalize.exec_eq, Effect.finalize.exec_eq⟩

/-! ## The command DIGEST -/

/-- A canonical message is the instruction's operand as it stands (R84, R185). -/
theorem decode_digest_word {len : BitVec 6} {msg : BitVec 440} (h : msg.toNat < 2 ^ (8 * len.toNat)) :
    decode (.cmd (len ++ 4#3) msg) = .ok (.digest len msg) := by
  rw [decode, decodeCmd_digest, keepBytes_of_lt h]

/-- The state when the steps of DIGEST are done and its response is due (R185). -/
def State.encodedTransform (s : State) (len : BitVec 6) (msg : BitVec 440) : State :=
  (s.setMem (encodeBuffer len msg s.mem)).performTransform

section
variable (s : State) (len : BitVec 6) (msg : BitVec 440)

@[simp] theorem State.encodedTransform_x :
    (s.encodedTransform len msg).x = transformQuad (encodeBuffer len msg s.mem) s.x := by
  simp [State.encodedTransform]
@[simp] theorem State.encodedTransform_mem : (s.encodedTransform len msg).mem = encodeBuffer len msg s.mem := by
  simp [State.encodedTransform]
@[simp] theorem State.encodedTransform_stepCounter : (s.encodedTransform len msg).stepCounter = 0 := by
  simp [State.encodedTransform]
@[simp] theorem State.encodedTransform_err : (s.encodedTransform len msg).err = s.err := by
  simp [State.encodedTransform]
@[simp] theorem State.encodedTransform_cause : (s.encodedTransform len msg).cause = s.cause := by
  simp [State.encodedTransform]
@[simp] theorem State.encodedTransform_port : (s.encodedTransform len msg).port = s.port := by
  simp [State.encodedTransform]
@[simp] theorem State.encodedTransform_view : (s.encodedTransform len msg).view = s.view := by
  simp [State.encodedTransform]

end

theorem exec_digest_of_le {len : BitVec 6} (hlen : len.toNat ≤ 55) (msg : BitVec 440) (s : State) :
    exec (.digest len msg) s =
      .next ((s.encodedTransform len msg).respond (digestResponse (s.encodedTransform len msg).x)) :=
  (Effect.digest (tooLong_of_le hlen)).exec_eq

theorem exec_digest_of_lt {len : BitVec 6} (hlen : 55 < len.toNat) (msg : BitVec 440) (s : State) :
    exec (.digest len msg) s = .next (s.enterFault .msgTooLong) :=
  (Effect.lengthFault (.inr rfl) (tooLong_of_lt hlen)).exec_eq

/-- A transform does not look at the response ports. -/
theorem State.performTransform_respond (s : State) (r : Response) :
    (s.respond r).performTransform = s.performTransform.respond r := by rfl

/-- The later response stands. -/
theorem State.respond_respond (s : State) (r r' : Response) : (s.respond r).respond r' = s.respond r' := by rfl

/-- Settles O23: TRANSFORM and FINALIZE see of the response before theirs nothing, and write their own over it; above
55 bytes both commands enter the same fault. -/
theorem digestIsEncodeTransformFinalize : Obligations.DigestIsEncodeTransformFinalize := by
  refine ⟨fun len msg => decode_digest_word, fun len msg s hlen => ?_, fun len msg s hlong => ?_⟩
  · refine ⟨_, _, _, exec_encode_of_le hlen msg s, Effect.transform.exec_eq, Effect.finalize.exec_eq, ?_⟩
    rw [exec_digest_of_le hlen msg s, State.encodedTransform]
    simp only [State.performTransform_respond, State.respond_respond, State.respond_x]
  · rw [exec_digest_of_lt hlong msg s, exec_encode_of_lt hlong]

/-- Settles O24, by the fault entry that DIGEST makes above 55 bytes. -/
theorem digestTooLongFaultsAsAWhole : Obligations.DigestTooLongFaultsAsAWhole := by
  intro len msg s hlong
  refine ⟨_, exec_digest_of_lt hlong msg s, ?_⟩
  simp [faultCode]

/-- Settles O21: both strings render registers, and every character of a rendering is the code of a nibble. -/
theorem digestStringIsUpperCaseHex : Obligations.DigestStringIsUpperCaseHex := by
  intro s len msg hlen
  refine ⟨_, _, _, _, Effect.finalize.exec_eq, rfl, exec_digest_of_le hlen msg s, rfl, fun c hc h hh => ?_⟩
  have hrendered : ∃ x digest, DigestRel x digest h := by
    rcases List.mem_pair.mp hh with rfl | rfl
    · exact ⟨_, _, digestRel_packBytes _⟩
    · exact ⟨_, _, digestRel_packBytes _⟩
  obtain ⟨x, digest, hrel⟩ := hrendered
  obtain ⟨n, hn⟩ := hrel.exists_nibble hc
  rw [hn]
  exact ruleCode_range n

/-- Settles O25: the 64 steps of DIGEST start from the registers as they are, over the buffer that ENCODE leaves. -/
theorem digestChainsFromTheHeldRegisters : Obligations.DigestChainsFromTheHeldRegisters := by
  intro len msg s hlen
  refine ⟨_, _, exec_encode_of_le hlen msg s, exec_digest_of_le hlen msg s, by simp, ?_, by simp [State.busy]⟩
  rw [State.respond_x, State.encodedTransform_x]
  exact transformRel_transformQuad (encodeBuffer len msg s.mem) s.x

/-! ## DIGEST on a fresh engine -/

theorem ruleMidx_lt (j : Nat) : ruleMidx j < 16 := by
  unfold ruleMidx
  split_ifs <;> exact Nat.mod_lt _ (by decide)

/-- A transform reads the sixteen words of the buffer and nothing else (R91, R155). -/
theorem TransformRel.congr {w w' : Nat → Word} {x y : Quad} (h : TransformRel w x y) (hw : ∀ i < 16, w i = w' i) :
    TransformRel w' x y := by
  obtain ⟨q, hstart, hsteps, hend⟩ := h
  refine ⟨q, hstart, fun j hj => ?_, hend⟩
  have hstep := hsteps j hj
  rwa [StepRel, hw _ (ruleMidx_lt j)] at hstep

/-- The words of a zero buffer after ENCODE's writes are those of the message's block (R59). -/
theorem readWord_encodeBuffer_of_zero {len : BitVec 6} (hlen : len.toNat ≤ 55) (msg : BitVec 440) {m : Memory}
    (hm : ∀ a < 64, memReadByte m a = 0) {i : Nat} (hi : i < 16) :
    readWord (encodeBuffer len msg m) i = blockWord len msg i := by
  have hbyte {a : Nat} (ha : a < 64) : memReadByte (encodeBuffer len msg m) a = blockByte len msg a :=
    memReadByte_encodeBuffer_of_zero hlen msg hm ha
  rw [readWord, blockWord, hbyte (by omega), hbyte (by omega), hbyte (by omega), hbyte (by omega)]

/-- Settles O26: on a fresh engine the held registers are IV and the buffer that ENCODE leaves is the message's block;
the response renders what the 64 steps make of them. -/
theorem digestOnAFreshEngineIsTheMessageDigest : Obligations.DigestOnAFreshEngineIsTheMessageDigest := by
  intro len msg s hlen ⟨hx, hzero⟩
  refine ⟨_, transformQuad (encodeBuffer len msg s.mem) s.x, _, _, exec_digest_of_le hlen msg s, rfl, ?_,
    digestRel_packBytes _, by simp⟩
  have hrel := transformRel_transformQuad (encodeBuffer len msg s.mem) s.x
  rw [hx] at hrel ⊢
  exact hrel.congr fun i hi => readWord_encodeBuffer_of_zero hlen msg (memReadByte_eq_zero_of_word hzero) hi

end Sys2Proof.Machine
end

section
/-! The two faults: when a command takes one and what it leaves (60_exceptions.md, sections 1 and 2). -/

namespace Sys2Proof.Machine

open Sys2Proof

/-! ## When a command faults -/

/-- The instructions that take fault `f`: R201 by the length, R202 by the opcode. -/
def FaultsWith (i : Instr) : CommandFault → Prop
  | .msgTooLong => ∃ len msg, (i = .encode len msg ∨ i = .digest len msg) ∧ 55 < len.toNat
  | .illegalCommand => i = .reserved5 ∨ i = .reserved6 ∨ i = .reserved7

theorem tooLong_eq_true_iff (len : BitVec 6) : tooLong len = true ↔ 55 < len.toNat := decide_eq_true_iff

theorem exists_faultsWith_iff (i : Instr) :
    (∃ f, FaultsWith i f) ↔
      (∃ len msg, (i = .encode len msg ∨ i = .digest len msg) ∧ 55 < len.toNat) ∨
      i = .reserved5 ∨ i = .reserved6 ∨ i = .reserved7 := by
  constructor
  · rintro ⟨f, hf⟩
    cases f with
    | msgTooLong => exact .inl hf
    | illegalCommand => exact .inr hf
  · rintro (hlong | hreserved)
    · exact ⟨.msgTooLong, hlong⟩
    · exact ⟨.illegalCommand, hreserved⟩

/-- The effect of a faulting command is the fault entry (R204). -/
theorem FaultsWith.effect {i : Instr} {f : CommandFault} (h : FaultsWith i f) (s : State) :
    Effect s i (s.enterFault f) := by
  cases f with
  | msgTooLong =>
    obtain ⟨len, msg, hi, hlen⟩ := h
    exact .lengthFault hi (tooLong_of_lt hlen)
  | illegalCommand => exact .opcodeFault h

/-! ## What a rejected response says -/

section
variable {i : Instr} {s t : State} {f : CommandFault} (h : Effect s i t) (hs : s.rsp = none)
include h hs

/-- Only the two fault entries answer a rejection; the micro-operations and the pin answer nothing. -/
theorem Effect.faultsWith_of_rejected (ht : t.rsp = some (.rejected f)) : FaultsWith i f := by
  cases h with
  | reset | encode | transform | finalize | digest => simp [digestResponse] at ht
  | microStep | hwreset => simp [hs] at ht
  | lengthFault hi hlen =>
    obtain rfl : CommandFault.msgTooLong = f := by simpa using ht
    exact ⟨_, _, hi, (tooLong_eq_true_iff _).mp hlen⟩
  | opcodeFault hi =>
    obtain rfl : CommandFault.illegalCommand = f := by simpa using ht
    exact hi

theorem Effect.eq_enterFault_of_rejected (ht : t.rsp = some (.rejected f)) : t = s.enterFault f :=
  h.unique ((h.faultsWith_of_rejected hs ht).effect s)

theorem Effect.rejected_iff : t.rsp = some (.rejected f) ↔ FaultsWith i f := by
  refine ⟨h.faultsWith_of_rejected hs, fun hf => ?_⟩
  rw [h.unique (hf.effect s), State.enterFault_rsp]

end

/-- Settles O28: a state that answers a rejection is the fault entry, which writes ERR, CAUSE and the response. -/
theorem faultsArePrecise : Obligations.FaultsArePrecise := by
  intro i s t f hs h ht
  obtain rfl := (exec_eq_next_iff.mp h).eq_enterFault_of_rejected hs ht
  simp

/-- Settles O29: every instruction has an effect, and its response is a rejection in the cases of the two faults. -/
theorem onlyTheTwoFaultsExist : Obligations.OnlyTheTwoFaultsExist := by
  intro i s hs
  obtain ⟨t, h⟩ := exists_effect i s
  refine ⟨t, h.exec_eq, ?_⟩
  simp only [h.rejected_iff hs]
  exact exists_faultsWith_iff i

end Sys2Proof.Machine
end

section
/-! The reset state, the edges of a busy engine, and completion (70_reset_and_hazards.md, sections 1, 3 and 4). -/

namespace Sys2Proof.Machine

open Sys2Proof

/-! ## The reset state -/

/-- The words of the empty list are 0 (R31). -/
theorem readWord_nil (i : Nat) : readWord [] i = 0 := by
  simp only [readWord, memReadByte_nil]
  rfl

/-- Settles O1: the registers hold IV, the buffer is empty, and nothing is in flight or recorded as a fault. -/
theorem resetStateHasTheSpecsValues : Obligations.ResetStateHasTheSpecsValues :=
  ⟨Quad.iv_a, Quad.iv_b, Quad.iv_c, Quad.iv_d, fun i _ => readWord_nil i, rfl, rfl, rfl, rfl, rfl, rfl⟩

/-! ## One edge of a busy engine -/

/-- The state that an edge makes with the command `f` in flight: the response that is due, or the step at STEP, which
at 63 ends the command (R24, R82). -/
def State.advance (s : State) (f : Flight) : State :=
  match f with
  | .respond r => s.complete (.respond r)
  | .transform | .digest => if s.stepCounter = 63#6 then s.nextStep.complete f else s.nextStep

theorem busyEdge_eq_advance (f : Flight) (s : State) : busyEdge f s = .next (s.advance f) := by
  cases f with
  | respond r => rfl
  | transform => exact busyEdge_stepping (.inl rfl) s
  | digest => exact busyEdge_stepping (.inr rfl) s

section
variable (s : State) (f : Flight) (port : List Drive) (view : View)

@[simp] theorem State.complete_port : (s.complete f).port = s.port := by cases f <;> rfl
@[simp] theorem State.nextStep_port : s.nextStep.port = s.port := by rfl
@[simp] theorem State.complete_view : (s.complete f).view = s.view := by cases f <;> rfl
@[simp] theorem State.nextStep_view : s.nextStep.view = s.view := by rfl

theorem State.complete_driven : (s.driven port view).complete f = (s.complete f).driven port view := by
  cases f <;> rfl
theorem State.nextStep_driven : (s.driven port view).nextStep = s.nextStep.driven port view := by rfl
theorem State.driven_stepCounter : (s.driven port view).stepCounter = s.stepCounter := by rfl

@[simp] theorem State.advance_port : (s.advance f).port = s.port := by
  cases f with
  | respond r => exact s.complete_port _
  | transform | digest => rw [State.advance]; split <;> simp

@[simp] theorem State.advance_view : (s.advance f).view = s.view := by
  cases f with
  | respond r => exact s.complete_view _
  | transform | digest => rw [State.advance]; split <;> simp

/-- A command in flight does not look at what the host drives or at the view (R247). -/
theorem State.advance_driven : (s.driven port view).advance f = (s.advance f).driven port view := by
  cases f with
  | respond r => exact s.complete_driven (.respond r) port view
  | transform | digest =>
    rw [State.advance, State.advance, State.driven_stepCounter, State.nextStep_driven, State.complete_driven]
    split <;> rfl

end

theorem State.accepts_of_busy {s : State} (hbusy : s.busy = true) : s.accepts = false := by
  simp [State.accepts, State.cmdReady, hbusy]

/-- While the host holds what it presents, an edge of a busy engine advances the command in flight (R82, R247). -/
theorem step_eq_advance {s : State} {f : Flight} (hflight : s.flight = some f) (hheld : heldOnly s.port = true) :
    step s = .next ((s.passEdge s.port).advance f) := by
  rw [step, clockEdge_busy hflight (ne_rst_of_heldOnly hheld), holdCommand_of_heldOnly hheld, busyEdge_eq_advance]

/-- Settles O42: the edge advances the command in flight, which keeps the port and does not look at it. -/
theorem presentedCommandWaitsWhileBusy : Obligations.PresentedCommandWaitsWhileBusy := by
  intro s word msg rest hbusy hport
  obtain ⟨f, hflight⟩ := Option.isSome_iff_exists.mp hbusy
  have hheld : heldOnly s.port = true := by rw [hport]; rfl
  refine ⟨State.accepts_of_busy hbusy, (s.passEdge s.port).advance f, step_eq_advance hflight hheld, by simp, ?_⟩
  calc step { s with port := [] }
      = .next (((s.passEdge s.port).driven [] s.view).advance f) :=
        step_eq_advance (s := { s with port := [] }) hflight rfl
    _ = .next (((s.passEdge s.port).advance f).driven [] s.view) := by rw [State.advance_driven]
    _ = .next { (s.passEdge s.port).advance f with port := [] } := by simp [State.driven]

/-! ## Completion -/

/-- An accepted command answers a next state in both views (R251). -/
theorem exists_runCommand {i : Instr} (hi : encodedFormat (encode i) = .cmd) (s : State) :
    ∃ t, runCommand i s = .next t := by
  obtain ⟨u, hu⟩ := exists_effect i s
  cases hview : s.view <;> simp only [runCommand, hview]
  case command => exact ⟨u, hu.exec_eq⟩
  case sequencer =>
    rcases acceptCommand_begins_or_defers hi s with (rfl | ⟨len, msg, rfl, hlen⟩) | ⟨-, haccept⟩
    · exact ⟨_, rfl⟩
    · exact ⟨(s.setMem (encodeBuffer len msg s.mem)).beginSteps .digest, by simp [acceptCommand, hlen]⟩
    · exact ⟨u.deferResponse, by rw [haccept, hu.exec_eq, mapNext]⟩

/-- Settles O33: every instruction has an effect; a step resets, advances the command in flight, runs an accepted
command or lets the edge go by. -/
theorem everyInstructionCompletes : Obligations.EveryInstructionCompletes := by
  have hexec (i : Instr) (s : State) : ∃ t, exec i s = .next t := (exists_effect i s).imp fun _ h => h.exec_eq
  refine ⟨hexec, fun s => ?_⟩
  rw [step]
  rcases clockEdge_cases s with
    ⟨rest, -, hedge⟩ | ⟨f, -, -, hedge⟩ | ⟨word, msg, rest, -, -, hedge⟩ | ⟨rest, -, -, hedge⟩ <;> rw [hedge]
  · exact hexec .hwreset (s.passEdge rest)
  · exact ⟨_, busyEdge_eq_advance f _⟩
  · exact exists_runCommand (encodedFormat_decodeCmd word msg) (s.passEdge rest)
  · exact ⟨_, rfl⟩

end Sys2Proof.Machine
end
